-- ==== Sys2Proof/Word.lean ====
section
/-! DEFINITION. The word types of the emulator core: the byte of the Memory Image, the 64-bit address,
and the 128-bit storage of one physical register (spec 10_state.md R8, R9; 20_memory.md R31, R32). -/

namespace Sys2Proof

/-- One byte of the Memory Image, of an instruction, or of a register's storage. -/
abbrev Byte := BitVec 8

/-- A 64-bit address: the address view of PC, SP, LO and IP (R18) and every address field (R32, R58). -/
abbrev Addr := BitVec 64

/-- The 128 bits of storage of one physical register (R8). -/
abbrev Word := BitVec 128

end Sys2Proof
end

