-- ==== Sys2Proof/Machine/Bytes.lean ====
section
/-! DEFINITION. Little-endian byte order, decided once (20_memory.md R36, R37, R39; 30_encoding.md R57, R58). -/

namespace Sys2Proof.Machine

/-- The number a byte sequence in memory order stands for: the first byte is the least significant (R36, R39). -/
def leNat : List Byte → Nat
  | [] => 0
  | b :: bs => b.toNat + 256 * leNat bs

/-- The low `n` bytes of a number, in memory order (R37, R39). -/
def leBytes : Nat → Nat → List Byte
  | 0, _ => []
  | n + 1, v => BitVec.ofNat 8 v :: leBytes n (v / 256)

/-- Byte `k` of a sequence (`t[k]`, `hdr[k]` of 30_encoding.md R54); 0 past its end, where no rule reads. -/
def byteAt (bs : List Byte) (k : Nat) : Byte := bs.getD k 0

end Sys2Proof.Machine
end

