-- ==== Sys2Proof/Config.lean ====
section
/-! DEFINITION. The implementation parameters of spec 00_scope.md R6, each a field of `Params`, carried (never
changed) by the state, so that a statement about every state is a statement about every value of them. -/

namespace Sys2Proof

/-- The parameters of R6. -/
structure Params where
  /-- `NREG`: the number of physical registers (51, decision D3). -/
  nreg : Nat
  /-- `MEMSIZE`: bytes in the Memory Image (OPEN, decision D23). -/
  memSize : Nat
  /-- `LOAD_OFFSET`: where the BIOS image goes, and the initial PC and SP (OPEN, decision D23). -/
  loadOffset : Addr
  /-- `VEC_ENTRY`: bytes per interrupt-vector entry (8, decision D12). -/
  vecEntry : Nat
  /-- `FAULT_HALTS`: whether a fault also clears RUNNING (false, decision D15). -/
  faultHalts : Bool
  /-- `IDIV_ENABLED`: whether `01 05` decodes as IDIV (true, decision D2). -/
  idivEnabled : Bool
deriving DecidableEq, Repr

/-- The values used at reset. `nreg`, `vecEntry`, `faultHalts` and `idivEnabled` are the values R6 says this hardware
takes; `memSize` and `loadOffset` are OPEN in R6 and are those of the scenario of the source's section 8
(DESIGN CHOICE, assumption log 1). -/
def Params.standard : Params :=
  { nreg := 51, memSize := 65536, loadOffset := 1024, vecEntry := 8, faultHalts := false, idivEnabled := true }

end Sys2Proof
end

