-- ==== Sys2Proof/Syntax.lean ====
section
/-! DEFINITION. The instructions of spec/opcode_table.json, one constructor per row (30_encoding.md R61),
with the operand bytes each row carries. Bytes the hardware fetches and ignores (R65: `g` of an instruction
without a register operand, the variant byte of HLT) are kept as fields, so that an instruction is exactly its
bytes and nothing of an encoding is dropped. -/

namespace Sys2Proof

/-- The five width views of a register (10_state.md R10), width codes 0 to 4. -/
inductive Width where
  | w128 | w64 | w32 | w16 | w8
deriving DecidableEq, Repr

/-- A register id: the byte that names a physical register and a width view (R10). Id 255 names no register (R11). -/
abbrev RegId := BitVec 8

/-- What a valid register id names: a physical register and the width it is viewed at (R10). -/
structure View where
  reg : Nat
  width : Width
deriving DecidableEq, Repr

/-- The instructions. `g` is the ignored register-operand byte of R65. -/
inductive Instr where
  /-- `00 00 dest src` (R77). -/
  | mov (dest src : RegId)
  /-- `00 01 dest imm`, the immediate as wide as the view of `dest` (R78, R56); held zero-extended. -/
  | movi (dest : RegId) (imm : BitVec 128)
  /-- `00 02 dest addr` (R79). -/
  | ldl (dest : RegId) (addr : Addr)
  /-- `00 03 src addr` (R80). -/
  | stl (src : RegId) (addr : Addr)
  /-- `00 04 dest addr` (R81). -/
  | ldg (dest : RegId) (addr : Addr)
  /-- `00 05 src addr` (R82). -/
  | stg (src : RegId) (addr : Addr)
  /-- `01 00 dest src1 src2` (R92). -/
  | sum (dest src1 src2 : RegId)
  /-- `01 01 dest src1 src2` (R93). -/
  | sub (dest src1 src2 : RegId)
  /-- `01 02 a b` (R94). -/
  | cmp (a b : RegId)
  /-- `01 03 dest src1 src2` (R95). -/
  | mul (dest src1 src2 : RegId)
  /-- `01 04 dest src1 src2` (R96). -/
  | div (dest src1 src2 : RegId)
  /-- `01 05 dest src1 src2` (R97). -/
  | idiv (dest src1 src2 : RegId)
  /-- `02 00 src` (R101). -/
  | push (src : RegId)
  /-- `02 01 dest` (R102). -/
  | pop (dest : RegId)
  /-- `02 02 g imm`, 16 bytes (R103). -/
  | pushi128 (g : Byte) (imm : BitVec 128)
  /-- `02 03 g imm`, 8 bytes (R104). -/
  | pushi64 (g : Byte) (imm : BitVec 64)
  /-- `02 04 g imm`, 4 bytes (R105). -/
  | pushi32 (g : Byte) (imm : BitVec 32)
  /-- `02 05 g imm`, 2 bytes (R106). -/
  | pushi16 (g : Byte) (imm : BitVec 16)
  /-- `02 06 g imm`, 1 byte (R107). -/
  | pushi8 (g : Byte) (imm : BitVec 8)
  /-- `03 00 g target` (R110). -/
  | je (g : Byte) (target : Addr)
  /-- `03 01 g target` (R111). -/
  | jne (g : Byte) (target : Addr)
  /-- `03 02 g target` (R112). -/
  | jl (g : Byte) (target : Addr)
  /-- `03 03 g target` (R113). -/
  | jb (g : Byte) (target : Addr)
  /-- `03 04 g target` (R114). -/
  | jle (g : Byte) (target : Addr)
  /-- `03 05 g target` (R115). -/
  | jbe (g : Byte) (target : Addr)
  /-- `03 06 g target` (R117). -/
  | call (g : Byte) (target : Addr)
  /-- `03 07 r` (R118). -/
  | callr (r : RegId)
  /-- `03 08 g` (R119). -/
  | ret (g : Byte)
  /-- `03 09 g id` (R122). -/
  | int (g id : Byte)
  /-- `03 0A g` (R123). -/
  | iret (g : Byte)
  /-- `FF var g` (R125). -/
  | hlt (var g : Byte)
deriving DecidableEq, Repr

end Sys2Proof
end

