-- ==== Sys2Proof/Machine/Views.lean ====
section
/-! DEFINITION. Register ids and width views (10_state.md R10, R11, R16): what a register-id byte names in a machine
of `nreg` registers, and which registers are PC, SP, LO and IP. -/

namespace Sys2Proof

/-- `nbytes(w)`, `16 >> w`: 16, 8, 4, 2, 1 (00_scope.md section 4). -/
def Width.bytes : Width → Nat
  | .w128 => 16
  | .w64 => 8
  | .w32 => 4
  | .w16 => 2
  | .w8 => 1

/-- `nbits(w) = 8 * nbytes(w)`. -/
abbrev Width.bits (w : Width) : Nat := 8 * w.bytes

/-- The width code `id mod 5` of a view. -/
def Width.code : Width → Nat
  | .w128 => 0
  | .w64 => 1
  | .w32 => 2
  | .w16 => 3
  | .w8 => 4

namespace Machine

/-- The view selected by width code `id mod 5`: 0 = 128-bit, 1 = 64-bit, 2 = 32-bit, 3 = 16-bit, 4 = 8-bit (R10).
It is defined for every id, valid or not (R56). -/
def regWidth (id : RegId) : Width :=
  match id.toNat % 5 with
  | 0 => .w128
  | 1 => .w64
  | 2 => .w32
  | 3 => .w16
  | _ => .w8

/-- What an id names, `none` where it is invalid: an id is valid when `id div 5 < NREG` (R10, R11). -/
def viewOf (nreg : Nat) (id : RegId) : Option View :=
  if id.toNat / 5 < nreg then some { reg := id.toNat / 5, width := regWidth id } else none

/-- The id of register `i` at width code `w` is `5*i + w` (R16). -/
def idOf (v : View) : RegId := BitVec.ofNat 8 (5 * v.reg + v.width.code)

end Machine

/-- PC is physical register `NREG-4` (R16). -/
def Params.pcIdx (p : Params) : Nat := p.nreg - 4

/-- SP is physical register `NREG-3` (R16). -/
def Params.spIdx (p : Params) : Nat := p.nreg - 3

/-- LO is physical register `NREG-2` (R16). -/
def Params.loIdx (p : Params) : Nat := p.nreg - 2

/-- IP is physical register `NREG-1` (R16). -/
def Params.ipIdx (p : Params) : Nat := p.nreg - 1

end Sys2Proof
end

