-- ==== Sys2Proof/WellFormed.lean ====
section
/-! DEFINITION. Well-formed instructions: every used register id is valid (10_state.md R11), register operands
of one instruction share one width (30_encoding.md R60), and an immediate fits its field (R56, R57). An
instruction that fails one of the first two still decodes, and executing it raises IllegalInstructionFault;
one that fails the third is the encoding of no byte sequence. -/

namespace Sys2Proof

/-- The register operands an instruction uses, in the order `g`, `t[0]`, `t[1]` (R59, R61, R131). -/
def Instr.operandIds : Instr → List RegId
  | .mov d a => [d, a]
  | .movi d _ => [d]
  | .ldl d _ => [d]
  | .stl a _ => [a]
  | .ldg d _ => [d]
  | .stg a _ => [a]
  | .sum d a b => [d, a, b]
  | .sub d a b => [d, a, b]
  | .cmp a b => [a, b]
  | .mul d a b => [d, a, b]
  | .div d a b => [d, a, b]
  | .idiv d a b => [d, a, b]
  | .push a => [a]
  | .pop d => [d]
  | .pushi128 _ _ => []
  | .pushi64 _ _ => []
  | .pushi32 _ _ => []
  | .pushi16 _ _ => []
  | .pushi8 _ _ => []
  | .je _ _ => []
  | .jne _ _ => []
  | .jl _ _ => []
  | .jb _ _ => []
  | .jle _ _ => []
  | .jbe _ _ => []
  | .call _ _ => []
  | .callr r => [r]
  | .ret _ => []
  | .int _ _ => []
  | .iret _ => []
  | .hlt _ _ => []

/-- Every used register id names one of `nreg` registers (R11). -/
def Instr.idsValid (i : Instr) (nreg : Nat) : Bool :=
  i.operandIds.all fun id => (Machine.viewOf nreg id).isSome

/-- All register operands share one width (R60): width codes are compared, not indices. -/
def Instr.widthsAgree (i : Instr) : Bool :=
  match i.operandIds with
  | [] => true
  | g :: rest => rest.all fun id => Machine.regWidth id == Machine.regWidth g

/-- The immediate of MOVI is exactly as wide as the destination view (R56, R57); every other field is as wide
as its type. -/
def Instr.immFits : Instr → Bool
  | .movi d imm => decide (imm.toNat < 2 ^ (Machine.regWidth d).bits)
  | _ => true

/-- The instructions that execute without IllegalInstructionFault, on `nreg` registers, and have an encoding. -/
def Instr.wellFormed (i : Instr) (nreg : Nat) : Bool := i.idsValid nreg && i.widthsAgree && i.immFits

end Sys2Proof
end

