-- ==== Sys2Proof/Decode.lean ====
section
/-! DEFINITION. Decoding and encoding (30_encoding.md R54 to R65). `decodeHeader` is the opcode map of R61 and
`decodeLength` of R62 in one table: for each header, how many trailing bytes follow and what instruction they
make. -/

namespace Sys2Proof

open Machine

/-- The opcode map (R61, R62): for the header bytes `fam var g`, the length `L` of the trailing field and the
instruction that trailing field `t` completes; `none` for an unknown family or variant (R63). IDIV has an
encoding only when `idivEnabled` (R97). The length depends on the header alone, for MOVI on `g mod 5` (R56). -/
def decodeHeader (idivEnabled : Bool) (fam var g : Byte) : Option (Nat × (List Byte → Instr)) :=
  match fam.toNat, var.toNat with
  | 0x00, 0x00 => some (1, fun t => .mov g (byteAt t 0))
  | 0x00, 0x01 => some ((regWidth g).bytes, fun t => .movi g (BitVec.ofNat 128 (leNat t)))
  | 0x00, 0x02 => some (8, fun t => .ldl g (BitVec.ofNat 64 (leNat t)))
  | 0x00, 0x03 => some (8, fun t => .stl g (BitVec.ofNat 64 (leNat t)))
  | 0x00, 0x04 => some (8, fun t => .ldg g (BitVec.ofNat 64 (leNat t)))
  | 0x00, 0x05 => some (8, fun t => .stg g (BitVec.ofNat 64 (leNat t)))
  | 0x01, 0x00 => some (2, fun t => .sum g (byteAt t 0) (byteAt t 1))
  | 0x01, 0x01 => some (2, fun t => .sub g (byteAt t 0) (byteAt t 1))
  | 0x01, 0x02 => some (1, fun t => .cmp g (byteAt t 0))
  | 0x01, 0x03 => some (2, fun t => .mul g (byteAt t 0) (byteAt t 1))
  | 0x01, 0x04 => some (2, fun t => .div g (byteAt t 0) (byteAt t 1))
  | 0x01, 0x05 => if idivEnabled then some (2, fun t => .idiv g (byteAt t 0) (byteAt t 1)) else none
  | 0x02, 0x00 => some (0, fun _ => .push g)
  | 0x02, 0x01 => some (0, fun _ => .pop g)
  | 0x02, 0x02 => some (16, fun t => .pushi128 g (BitVec.ofNat 128 (leNat t)))
  | 0x02, 0x03 => some (8, fun t => .pushi64 g (BitVec.ofNat 64 (leNat t)))
  | 0x02, 0x04 => some (4, fun t => .pushi32 g (BitVec.ofNat 32 (leNat t)))
  | 0x02, 0x05 => some (2, fun t => .pushi16 g (BitVec.ofNat 16 (leNat t)))
  | 0x02, 0x06 => some (1, fun t => .pushi8 g (BitVec.ofNat 8 (leNat t)))
  | 0x03, 0x00 => some (8, fun t => .je g (BitVec.ofNat 64 (leNat t)))
  | 0x03, 0x01 => some (8, fun t => .jne g (BitVec.ofNat 64 (leNat t)))
  | 0x03, 0x02 => some (8, fun t => .jl g (BitVec.ofNat 64 (leNat t)))
  | 0x03, 0x03 => some (8, fun t => .jb g (BitVec.ofNat 64 (leNat t)))
  | 0x03, 0x04 => some (8, fun t => .jle g (BitVec.ofNat 64 (leNat t)))
  | 0x03, 0x05 => some (8, fun t => .jbe g (BitVec.ofNat 64 (leNat t)))
  | 0x03, 0x06 => some (8, fun t => .call g (BitVec.ofNat 64 (leNat t)))
  | 0x03, 0x07 => some (0, fun _ => .callr g)
  | 0x03, 0x08 => some (0, fun _ => .ret g)
  | 0x03, 0x09 => some (1, fun t => .int g (byteAt t 0))
  | 0x03, 0x0A => some (0, fun _ => .iret g)
  | 0xFF, _ => some (0, fun _ => .hlt var g)
  | _, _ => none

/-- `decodeLength(fam, var, g)` of R62: the trailing length, `none` where the header is illegal. -/
def decodeLength (idivEnabled : Bool) (fam var g : Byte) : Option Nat :=
  (decodeHeader idivEnabled fam var g).map Prod.fst

/-- Why a byte sequence is not an instruction. -/
inductive DecodeError where
  /-- Fewer bytes than the header, or than the header and the trailing field it asks for. -/
  | truncated
  /-- Unknown family or variant byte (R63). -/
  | unknownEncoding (fam var : Byte)
deriving DecidableEq, Repr

/-- The instruction at the head of a byte sequence, and the bytes after it; total on any bytes (R54, R62, R63). -/
def decode (idivEnabled : Bool) : List Byte → Except DecodeError (Instr × List Byte)
  | fam :: var :: g :: rest =>
    match decodeHeader idivEnabled fam var g with
    | none => .error (.unknownEncoding fam var)
    | some (l, build) =>
      if rest.length < l then .error .truncated else .ok (build (rest.take l), rest.drop l)
  | _ => .error .truncated

/-- The family byte of an instruction (R61). -/
def Instr.fam : Instr → Byte
  | .mov _ _ => 0x00
  | .movi _ _ => 0x00
  | .ldl _ _ => 0x00
  | .stl _ _ => 0x00
  | .ldg _ _ => 0x00
  | .stg _ _ => 0x00
  | .sum _ _ _ => 0x01
  | .sub _ _ _ => 0x01
  | .cmp _ _ => 0x01
  | .mul _ _ _ => 0x01
  | .div _ _ _ => 0x01
  | .idiv _ _ _ => 0x01
  | .push _ => 0x02
  | .pop _ => 0x02
  | .pushi128 _ _ => 0x02
  | .pushi64 _ _ => 0x02
  | .pushi32 _ _ => 0x02
  | .pushi16 _ _ => 0x02
  | .pushi8 _ _ => 0x02
  | .je _ _ => 0x03
  | .jne _ _ => 0x03
  | .jl _ _ => 0x03
  | .jb _ _ => 0x03
  | .jle _ _ => 0x03
  | .jbe _ _ => 0x03
  | .call _ _ => 0x03
  | .callr _ => 0x03
  | .ret _ => 0x03
  | .int _ _ => 0x03
  | .iret _ => 0x03
  | .hlt _ _ => 0xFF

/-- The variant byte of an instruction (R61). -/
def Instr.var : Instr → Byte
  | .mov _ _ => 0x00
  | .movi _ _ => 0x01
  | .ldl _ _ => 0x02
  | .stl _ _ => 0x03
  | .ldg _ _ => 0x04
  | .stg _ _ => 0x05
  | .sum _ _ _ => 0x00
  | .sub _ _ _ => 0x01
  | .cmp _ _ => 0x02
  | .mul _ _ _ => 0x03
  | .div _ _ _ => 0x04
  | .idiv _ _ _ => 0x05
  | .push _ => 0x00
  | .pop _ => 0x01
  | .pushi128 _ _ => 0x02
  | .pushi64 _ _ => 0x03
  | .pushi32 _ _ => 0x04
  | .pushi16 _ _ => 0x05
  | .pushi8 _ _ => 0x06
  | .je _ _ => 0x00
  | .jne _ _ => 0x01
  | .jl _ _ => 0x02
  | .jb _ _ => 0x03
  | .jle _ _ => 0x04
  | .jbe _ _ => 0x05
  | .call _ _ => 0x06
  | .callr _ => 0x07
  | .ret _ => 0x08
  | .int _ _ => 0x09
  | .iret _ => 0x0A
  | .hlt var _ => var

/-- The register-operand byte of an instruction, used or ignored (R59, R65). -/
def Instr.g : Instr → Byte
  | .mov d _ => d
  | .movi d _ => d
  | .ldl d _ => d
  | .stl a _ => a
  | .ldg d _ => d
  | .stg a _ => a
  | .sum d _ _ => d
  | .sub d _ _ => d
  | .cmp a _ => a
  | .mul d _ _ => d
  | .div d _ _ => d
  | .idiv d _ _ => d
  | .push a => a
  | .pop d => d
  | .pushi128 g _ => g
  | .pushi64 g _ => g
  | .pushi32 g _ => g
  | .pushi16 g _ => g
  | .pushi8 g _ => g
  | .je g _ => g
  | .jne g _ => g
  | .jl g _ => g
  | .jb g _ => g
  | .jle g _ => g
  | .jbe g _ => g
  | .call g _ => g
  | .callr r => r
  | .ret g => g
  | .int g _ => g
  | .iret g => g
  | .hlt _ g => g

/-- The trailing field of an instruction (R57, R58, R59): multi-byte fields little-endian. -/
def Instr.trailing : Instr → List Byte
  | .mov _ a => [a]
  | .movi d imm => leBytes (regWidth d).bytes imm.toNat
  | .ldl _ addr => leBytes 8 addr.toNat
  | .stl _ addr => leBytes 8 addr.toNat
  | .ldg _ addr => leBytes 8 addr.toNat
  | .stg _ addr => leBytes 8 addr.toNat
  | .sum _ a b => [a, b]
  | .sub _ a b => [a, b]
  | .cmp _ b => [b]
  | .mul _ a b => [a, b]
  | .div _ a b => [a, b]
  | .idiv _ a b => [a, b]
  | .push _ => []
  | .pop _ => []
  | .pushi128 _ imm => leBytes 16 imm.toNat
  | .pushi64 _ imm => leBytes 8 imm.toNat
  | .pushi32 _ imm => leBytes 4 imm.toNat
  | .pushi16 _ imm => leBytes 2 imm.toNat
  | .pushi8 _ imm => leBytes 1 imm.toNat
  | .je _ target => leBytes 8 target.toNat
  | .jne _ target => leBytes 8 target.toNat
  | .jl _ target => leBytes 8 target.toNat
  | .jb _ target => leBytes 8 target.toNat
  | .jle _ target => leBytes 8 target.toNat
  | .jbe _ target => leBytes 8 target.toNat
  | .call _ target => leBytes 8 target.toNat
  | .callr _ => []
  | .ret _ => []
  | .int _ id => [id]
  | .iret _ => []
  | .hlt _ _ => []

/-- The bytes of an instruction in memory order: header, then trailing field (R54). -/
def encode (i : Instr) : List Byte := i.fam :: i.var :: i.g :: i.trailing

/-- The length of an instruction in bytes, `3 + L` (R55). -/
def Instr.length (i : Instr) : Nat := 3 + i.trailing.length

/-- The longest instruction: 19 bytes (R55). -/
def maxInstrBytes : Nat := 19

/-- The bytes of a word of spec/opcode_table.json, in memory order, up to the longest instruction. The table's
first word is 16 bits, `(byte0 << 8) | byte1` (INDEX.md, Reading opcode_table.json): the family byte, at the lower
address, is bits 15..8 and the variant byte bits 7..0. Bits past 15, which the table gives no row, count on byte by
byte. Bits from `nbits` up are 0. -/
def tableBytes (nbits w : Nat) : List Byte :=
  let v := w % 2 ^ nbits
  BitVec.ofNat 8 (v / 256) :: BitVec.ofNat 8 v :: leBytes (maxInstrBytes - 2) (v / 65536)

/-- The instruction the decoder reads from an instruction whose bits are `w`, numbered as
spec/opcode_table.json numbers them; IDIV is enabled, as this hardware has it (R6). -/
def decodeTableWord (nbits w : Nat) : Option Instr :=
  match decode true (tableBytes nbits w) with
  | .ok (i, _) => some i
  | .error _ => none

end Sys2Proof
end

