-- ==== Sys2Proof/Machine/State.lean ====
section
/-! DEFINITION. The state of one core and the Memory Image it runs on (10_state.md R8, R22, R26, R27), as plain
data, and the state after reset (R29, R142). -/

namespace Sys2Proof.Machine

/-- The faults of 60_exceptions.md R126, each with the info its report records. An instruction raises one in its
meaning, or the fetch does; the step TAKES it there and then (`takeFault`: effects suppressed, PC past the consumed
bytes, a report), as R71 and R128 say, and answers a next state. So `Host.Outcome.fault` is never the outcome of
`exec` or `step`; nothing here stops a run. -/
inductive Fault where
  /-- IllegalInstructionFault: unknown family or variant. Raised by the fetch (R62, R63). Safe: the spec's own. -/
  | unknownEncoding
  /-- IllegalInstructionFault: a used register operand names no register (R11). Raised by every instruction with a
  used register operand. Safe: the spec's own. -/
  | invalidRegister (id : RegId)
  /-- IllegalInstructionFault: register operands of different widths (R60). Raised by MOV, CMP, SUM, SUB, MUL, DIV
  and IDIV. Safe: the spec's own. -/
  | widthMismatch
  /-- MemoryFault: an access out of bounds at effective address `ea` (R35). Raised by the fetch, loads, stores, and
  every stack or vector access. Safe: the spec's own. -/
  | memory (ea : Addr)
  /-- ArithmeticFault: division by zero (R89, R90). Raised by DIV and IDIV. Safe: the spec's own. -/
  | divideByZero
deriving DecidableEq, Repr

/-- Reasons to have no meaning for an instruction. -/
inductive Refusal where
  /-- An instruction of the opcode table without a meaning. Raised by no arm of `exec`: all 31 have one. Safe. -/
  | notModelled (mnemonic : String)
deriving DecidableEq, Repr

/-- The fault report of 60_exceptions.md R130: the fault with its info, the PC at the start of the step, and the
family and variant bytes when the header was fetched. -/
structure FaultReport where
  fault : Fault
  startPc : Addr
  header : Option (Byte × Byte)
deriving DecidableEq, Repr

/-- The Flag Register (10_state.md R22): exactly four bits. LESS is also named OVERFLOW. No instruction reads it as a
value; `Flags.toBits` gives the bit positions a host sees. -/
structure Flags where
  running : Bool
  equals : Bool
  less : Bool
  more : Bool
deriving DecidableEq, Repr

/-- The Memory Image (R26) as (address, byte) pairs in canonical form: addresses strictly rising, and no entry equal
to what an unlisted address reads as (`unlistedByte`). -/
structure Memory where
  cells : List Host.Cell
deriving DecidableEq, Repr

/-- What an unlisted address reads as: 0, since the Memory Image is zero-initialised (R26, R29). -/
abbrev unlistedByte : Byte := 0

/-- One core with its Memory Image. `regs`, `flags` and `mem` are the spec's whole state (R27, R28). `params` and
`reports` are the model's own: the parameters R6 makes an argument of the model, which no step changes, and the
run's history of fault reports (R130), newest first, which no step reads (R30). -/
structure State where
  /-- The Register File `R[0]` to `R[NREG-1]` (R8), `R[0]` first; PC, SP, LO and IP are its top four (R16). -/
  regs : List Word
  /-- The Flag Register (R22). -/
  flags : Flags
  /-- The Memory Image (R26). -/
  mem : Memory
  /-- The implementation parameters (R6). -/
  params : Params
  /-- The fault reports emitted so far, newest first (R130). -/
  reports : List FaultReport
deriving DecidableEq, Repr

/-- The state the initialisation contract leaves before a BIOS image is copied in (R29, R142): memory zero, every
register zero but PC = SP = `LOAD_OFFSET` in bits 63:0, RUNNING set and the comparison flags clear. -/
def State.boot (p : Params) : State :=
  { regs := ((List.replicate p.nreg (0 : Word)).set p.pcIdx (p.loadOffset.setWidth 128)).set p.spIdx
      (p.loadOffset.setWidth 128)
    flags := { running := true, equals := false, less := false, more := false }
    mem := { cells := [] }
    params := p
    reports := [] }

/-- The machine before its first step (R29), with no image in memory: what the loader writes there comes from outside
the core (R5, R142; assumption log 2). -/
def State.reset : State := State.boot Params.standard

end Sys2Proof.Machine
end

