-- ==== Sys2Proof/Machine/Ops.lean ====
section
/-! DEFINITION. The named operations over registers, memory and stack (10_state.md R12, R13, R18; 20_memory.md R33 to
R38; 43_stack.md R98, R99), taking a fault (40_step.md R71), and entry to and return from the software interrupt
(44_control.md R122, R123). An operation that can fault answers in `Except Fault`; a fault discards the state built so
far, which is how "all or nothing" (R71, decision D16) is kept. -/

namespace Sys2Proof.Machine

/-! ### Registers -/

/-- `old` with its low `n` bits replaced by `v` (R13). -/
def spliceLow {n : Nat} (old : Word) (v : BitVec n) : Word :=
  ((old >>> n) <<< n) ||| v.setWidth 128

/-- `R[i]`; 0 past the Register File, where no rule reads. -/
def State.reg (s : State) (i : Nat) : Word := s.regs.getD i 0

/-- `R[i] <- v`, all 128 bits. -/
def State.setReg (s : State) (i : Nat) (v : Word) : State := { s with regs := s.regs.set i v }

/-- Reading `R[i]` through the view of width `w` (R12). -/
def State.readReg (s : State) (i : Nat) (w : Width) : BitVec w.bits := (s.reg i).setWidth w.bits

/-- Writing `R[i]` through the view of width `w`: the bits outside the view are unchanged (R13). -/
def State.writeReg (s : State) (i : Nat) (w : Width) (v : BitVec w.bits) : State :=
  s.setReg i (spliceLow (s.reg i) v)

/-- `R[i].a`, the 64-bit address view (R18). -/
def State.addr (s : State) (i : Nat) : Addr := (s.reg i).setWidth 64

/-- `R[i][63:0] <- a`, bits 127:64 unchanged (R18). -/
def State.setAddr (s : State) (i : Nat) (a : Addr) : State := s.setReg i (spliceLow (s.reg i) a)

/-- `pc`, that is `R[PC].a` (00_scope.md section 4). -/
def State.pc (s : State) : Addr := s.addr s.params.pcIdx

/-- `pc <- t` (R18, R109). -/
def State.setPc (s : State) (t : Addr) : State := s.setAddr s.params.pcIdx t

/-- The flag bits at the positions a host sees (R22): 0 RUNNING, 1 EQUALS, 2 LESS, 3 MORE. -/
def Flags.toBits (f : Flags) : BitVec 4 :=
  BitVec.ofBool f.more ++ BitVec.ofBool f.less ++ BitVec.ofBool f.equals ++ BitVec.ofBool f.running

/-! ### Memory bytes -/

/-- The byte listed at an address, `unlistedByte` where none is. -/
def lookupCell : List Host.Cell → Nat → Byte
  | [], _ => unlistedByte
  | (k, v) :: rest, a => if a = k then v else lookupCell rest a

/-- An entry put before `rest`, unless it says what an unlisted address reads as anyway. -/
def consCell (a : Nat) (b : Byte) (rest : List Host.Cell) : List Host.Cell :=
  if b = unlistedByte then rest else (a, b) :: rest

/-- The cells with the byte at `a` replaced, kept in canonical form. -/
def insertCell : List Host.Cell → Nat → Byte → List Host.Cell
  | [], a, b => consCell a b []
  | (k, v) :: rest, a, b =>
    if a < k then consCell a b ((k, v) :: rest)
    else if a = k then consCell a b rest
    else (k, v) :: insertCell rest a b

/-- `M[a]`. -/
def Memory.read (m : Memory) (a : Nat) : Byte := lookupCell m.cells a

/-- `M[a] <- b`. -/
def Memory.write (m : Memory) (a : Nat) (b : Byte) : Memory := { cells := insertCell m.cells a b }

/-- Strictly rising addresses, and no entry equal to what an unlisted address reads as. -/
def cellsWf : List Host.Cell → Bool
  | [] => true
  | (k, v) :: rest => (v != unlistedByte) && rest.all (fun c => decide (k < c.1)) && cellsWf rest

/-- The Memory Image is in canonical form. -/
def Memory.wf (m : Memory) : Bool := cellsWf m.cells

/-- The bytes `M[a], ..., M[a+n-1]`. -/
def Memory.readBytes (m : Memory) (a : Nat) : Nat → List Byte
  | 0 => []
  | n + 1 => m.read a :: m.readBytes (a + 1) n

/-- `M[a+k] <- bs[k]` for each `k`. -/
def Memory.writeBytes (m : Memory) (a : Nat) : List Byte → Memory
  | [] => m
  | b :: bs => (m.write a b).writeBytes (a + 1) bs

/-! ### Accesses -/

/-- `LocalEA(a) = a +_64 R[LO].a`, with LO as it is now (R33). -/
def State.localEA (s : State) (a : Addr) : Addr := a + s.addr s.params.loIdx

/-- `GlobalEA(a) = a` (R33). -/
def globalEA (a : Addr) : Addr := a

/-- An access of `n` bytes at `ea` is in bounds when `ea + n <= MEMSIZE` over unbounded integers (R35). -/
abbrev State.inBounds (s : State) (ea : Addr) (n : Nat) : Prop := ea.toNat + n ≤ s.params.memSize

/-- `MemRead(ea, n)` (R36). -/
def State.memRead (s : State) (ea : Addr) (n : Nat) : Except Fault (BitVec (8 * n)) :=
  if s.inBounds ea n then .ok (BitVec.ofNat (8 * n) (leNat (s.mem.readBytes ea.toNat n)))
  else .error (.memory ea)

/-- `MemWrite(ea, n, v)` (R37): no byte is written where the access is out of bounds. -/
def State.memWrite (s : State) (ea : Addr) (n : Nat) (v : BitVec (8 * n)) : Except Fault State :=
  if s.inBounds ea n then
    .ok { s with mem := s.mem.writeBytes ea.toNat (leBytes n v.toNat) }
  else .error (.memory ea)

/-- `FetchBytes(ea, n)` (R38): an access of no bytes never faults. -/
def State.fetchBytes (s : State) (ea : Addr) (n : Nat) : Except Fault (List Byte) :=
  if n = 0 ∨ s.inBounds ea n then .ok (s.mem.readBytes ea.toNat n) else .error (.memory ea)

/-! ### Stack -/

/-- `push(n, v)` (R98): the slot is at `LocalEA(SP - n)`; SP moves only when the write does not fault. -/
def State.push (s : State) (n : Nat) (v : BitVec (8 * n)) : Except Fault State := do
  let sp' := s.addr s.params.spIdx - BitVec.ofNat 64 n
  let s' ← s.memWrite (s.localEA sp') n v
  return s'.setAddr s.params.spIdx sp'

/-- `pop(n)` (R99): the value, and the state in which SP has moved. -/
def State.pop (s : State) (n : Nat) : Except Fault (BitVec (8 * n) × State) := do
  let v ← s.memRead (s.localEA (s.addr s.params.spIdx)) n
  return (v, s.setAddr s.params.spIdx (s.addr s.params.spIdx + BitVec.ofNat 64 n))

/-! ### Taking a fault -/

/-- The fault codes of R126: 1 IllegalInstructionFault, 2 MemoryFault, 3 ArithmeticFault. -/
def Fault.code : Fault → Nat
  | .unknownEncoding => 1
  | .invalidRegister _ => 1
  | .widthMismatch => 1
  | .memory _ => 2
  | .divideByZero => 3

/-- Taking a fault (R71, R128, R129). `s` is the state at the start of the step but for the PC, which is already past
the consumed bytes (R72): no other write of the instruction is in it. The report is emitted, and RUNNING is cleared
where `FAULT_HALTS`. -/
def takeFault (f : Fault) (startPc : Addr) (header : Option (Byte × Byte)) (s : State) : State :=
  { s with
    flags := { s.flags with running := s.flags.running && !s.params.faultHalts }
    reports := { fault := f, startPc := startPc, header := header } :: s.reports }

/-- The fault of an instruction in execution: PC stays past the whole instruction (R72), so the step started
`length` bytes before it (R69). -/
def faultOf (i : Instr) (f : Fault) (s : State) : State :=
  takeFault f (s.pc - BitVec.ofNat 64 i.length) (some (i.fam, i.var)) s

/-- How an instruction ends: with its effects, or with a fault and none of them (R71). -/
def finish (i : Instr) (s : State) : Except Fault State → Host.Outcome State Fault Refusal
  | .ok s' => .next s'
  | .error f => .next (faultOf i f s)

/-! ### Software interrupt: entry and return -/

/-- The physical registers in index order. -/
def State.allRegs (s : State) : List Nat := List.range s.params.nreg

/-- Pushes the registers listed, each read when its turn comes (R122). -/
def State.pushRegs (s : State) : List Nat → Except Fault State
  | [] => .ok s
  | i :: is => do
    let s' ← s.push 16 (s.reg i)
    s'.pushRegs is

/-- Pops into the registers listed, each written after SP has moved, with SP and LO as they are then (R123). -/
def State.popRegs (s : State) : List Nat → Except Fault State
  | [] => .ok s
  | i :: is => do
    let (v, s') ← s.pop 16
    (s'.setReg i v).popRegs is

/-- The local address of vector entry `id` (R121, R122). -/
def State.vectorAddr (s : State) (id : Byte) : Addr :=
  BitVec.ofNat 64 (id.toNat * s.params.vecEntry) + s.addr s.params.ipIdx

/-- Trap entry (R122, R133): the vector address first, then every register's 128 bits in index order onto the stack,
then the handler address read through the vector, which so sees what the pushes wrote (R45). -/
def trapEnter (id : Byte) (s : State) : Except Fault State := do
  let vaddr := s.vectorAddr id
  let s' ← s.pushRegs s.allRegs
  let h ← s'.memRead (s'.localEA vaddr) 8
  return s'.setPc h

/-- Trap return (R123, R134): every register popped in reverse index order; the run resumes at the restored PC. -/
def trapReturn (s : State) : Except Fault State := s.popRegs s.allRegs.reverse

end Sys2Proof.Machine
end

