-- ==== Sys2Proof/Machine/Flags.lean ====
section
/-! DEFINITION. The comparison flags (42_arithmetic.md R84) and the conditions of the six jumps (44_control.md R108). -/

namespace Sys2Proof.Machine

/-- The flag refresh of R84: LESS, EQUALS and MORE from the unsigned comparison of the operands; RUNNING unchanged. -/
def compareFlags {n : Nat} (a b : BitVec n) (f : Flags) : Flags :=
  { f with less := decide (a.toNat < b.toNat), equals := decide (a.toNat = b.toNat), more := decide (a.toNat > b.toNat) }

/-- The flags of an ALU call on `a` and `b`, in the state. -/
def State.compare {n : Nat} (s : State) (a b : BitVec n) : State := { s with flags := compareFlags a b s.flags }

/-- JE: EQUALS set (R108). -/
def condJe (f : Flags) : Bool := f.equals

/-- JNE: EQUALS clear (R108). -/
def condJne (f : Flags) : Bool := !f.equals

/-- JL: LESS set, the OVERFLOW bit (R108). -/
def condJl (f : Flags) : Bool := f.less

/-- JB: MORE set (R108; 90_conflicts.md C2). -/
def condJb (f : Flags) : Bool := f.more

/-- JLE: LESS or EQUALS set (R108). -/
def condJle (f : Flags) : Bool := f.less || f.equals

/-- JBE: MORE clear or EQUALS set (R108; 90_conflicts.md C2). -/
def condJbe (f : Flags) : Bool := !f.more || f.equals

end Sys2Proof.Machine
end

