-- ==== Sys2Proof/Machine/Operands.lean ====
section
/-! DEFINITION. Operand forms: what an instruction's register ids, address fields and ALU operations stand for, and
the faults they raise (10_state.md R11; 30_encoding.md R60; 42_arithmetic.md R83 to R90). -/

namespace Sys2Proof.Machine

/-- A used register operand of a machine of `nreg` registers: IllegalInstructionFault where its id is invalid (R11). -/
def operand (nreg : Nat) (id : RegId) : Except Fault View :=
  match viewOf nreg id with
  | some v => .ok v
  | none => .error (.invalidRegister id)

/-- Width consistency (R60): IllegalInstructionFault where two operands' widths differ. -/
def sameWidth (v w : View) : Except Fault Unit :=
  if v.width = w.width then .ok () else .error .widthMismatch

/-- `x[id]` for what a valid id names (R12). -/
def State.readView (s : State) (v : View) : BitVec v.width.bits := s.readReg v.reg v.width

/-- `x[id] <- value` for what a valid id names (R13). -/
def State.writeView (s : State) (v : View) (value : BitVec v.width.bits) : State := s.writeReg v.reg v.width value

/-- The operations of the ALU (R83). -/
inductive AluOp where
  | sum | sub | mul | div | idiv
deriving DecidableEq, Repr

/-- Unsigned truncating division; division by zero is a fault (R89). -/
def divide {n : Nat} (a b : BitVec n) : Except Fault (BitVec n) :=
  if b.toNat = 0 then .error .divideByZero else .ok (BitVec.ofNat n (a.toNat / b.toNat))

/-- The magnitude of an operand read as two's complement (R90): the top bit tested, `2^n - u(a)` where it is set. -/
def magnitude {n : Nat} (a : BitVec n) : Nat := if a.msb then 2 ^ n - a.toNat else a.toNat

/-- Signed division on magnitudes, the quotient negated when exactly one operand was negative (R90). -/
def signedDivide {n : Nat} (a b : BitVec n) : Except Fault (BitVec n) :=
  if b.toNat = 0 then .error .divideByZero
  else
    let q := magnitude a / magnitude b
    .ok (BitVec.ofNat n (if a.msb != b.msb then 2 ^ n - q else q))

/-- `apply(op, a, b)` (R83, R86 to R90). -/
def aluApply {n : Nat} (op : AluOp) (a b : BitVec n) : Except Fault (BitVec n) :=
  match op with
  | .sum => .ok (BitVec.ofNat n (a.toNat + b.toNat))
  | .sub => .ok (BitVec.ofNat n (2 ^ n + a.toNat - b.toNat))
  | .mul => .ok (BitVec.ofNat n (a.toNat * b.toNat))
  | .div => divide a b
  | .idiv => signedDivide a b

end Sys2Proof.Machine
end

