-- ==== Sys2Proof/Machine/Arithmetic.lean ====
section
/-! DEFINITION. The arithmetic family 0x01 (42_arithmetic.md R92 to R97). Checks in order: every id valid, the widths
equal, then the ALU; every source is read before the destination is written (R70). -/

namespace Sys2Proof.Machine

/-- The register triple of R92: the result to `dest`, the flags from the operands as read. The flags are a write
effect, lost with the rest where the ALU faults (R85). -/
def aluTriple (op : AluOp) (dest src1 src2 : RegId) (s : State) : Except Fault State := do
  let d ← operand s.params.nreg dest
  let v1 ← operand s.params.nreg src1
  let v2 ← operand s.params.nreg src2
  sameWidth d v1
  sameWidth d v2
  let a := s.readReg v1.reg d.width
  let b := s.readReg v2.reg d.width
  let r ← aluApply op a b
  return (s.writeView d r).compare a b

/-- SUM (R92). -/
def execSum (dest src1 src2 : RegId) (s : State) : Host.Outcome State Fault Refusal :=
  finish (.sum dest src1 src2) s (aluTriple .sum dest src1 src2 s)

/-- SUB (R93). -/
def execSub (dest src1 src2 : RegId) (s : State) : Host.Outcome State Fault Refusal :=
  finish (.sub dest src1 src2) s (aluTriple .sub dest src1 src2 s)

/-- CMP: the flags of a subtraction whose result is discarded (R94). -/
def execCmp (a b : RegId) (s : State) : Host.Outcome State Fault Refusal :=
  finish (.cmp a b) s do
    let va ← operand s.params.nreg a
    let vb ← operand s.params.nreg b
    sameWidth va vb
    let x := s.readReg va.reg va.width
    let y := s.readReg vb.reg va.width
    let _ ← aluApply .sub x y
    return s.compare x y

/-- MUL (R95). -/
def execMul (dest src1 src2 : RegId) (s : State) : Host.Outcome State Fault Refusal :=
  finish (.mul dest src1 src2) s (aluTriple .mul dest src1 src2 s)

/-- DIV (R96). -/
def execDiv (dest src1 src2 : RegId) (s : State) : Host.Outcome State Fault Refusal :=
  finish (.div dest src1 src2) s (aluTriple .div dest src1 src2 s)

/-- IDIV (R97). -/
def execIdiv (dest src1 src2 : RegId) (s : State) : Host.Outcome State Fault Refusal :=
  finish (.idiv dest src1 src2) s (aluTriple .idiv dest src1 src2 s)

end Sys2Proof.Machine
end

