-- ==== Sys2Proof/Machine/Control.lean ====
section
/-! DEFINITION. The control family 0x03 (44_control.md R108 to R123). No instruction of it writes a flag. In every
meaning `pc` already holds the post-operand PC (40_step.md R69). -/

namespace Sys2Proof.Machine

/-- The shape of a conditional jump (R109): `pc <- target` where the condition holds; it raises no fault. -/
def jumpIf (cond : Bool) (target : Addr) (s : State) : State := if cond then s.setPc target else s

/-- The shape of a call (R117): the return address pushed, then `pc <- target`. -/
def callTo (target : Addr) (s : State) : Except Fault State := do
  let s' ← s.push 8 s.pc
  return s'.setPc target

/-- JE (R110). -/
def execJe (g : Byte) (target : Addr) (s : State) : Host.Outcome State Fault Refusal :=
  finish (.je g target) s (.ok (jumpIf (condJe s.flags) target s))

/-- JNE (R111). -/
def execJne (g : Byte) (target : Addr) (s : State) : Host.Outcome State Fault Refusal :=
  finish (.jne g target) s (.ok (jumpIf (condJne s.flags) target s))

/-- JL (R112). -/
def execJl (g : Byte) (target : Addr) (s : State) : Host.Outcome State Fault Refusal :=
  finish (.jl g target) s (.ok (jumpIf (condJl s.flags) target s))

/-- JB (R113). -/
def execJb (g : Byte) (target : Addr) (s : State) : Host.Outcome State Fault Refusal :=
  finish (.jb g target) s (.ok (jumpIf (condJb s.flags) target s))

/-- JLE (R114). -/
def execJle (g : Byte) (target : Addr) (s : State) : Host.Outcome State Fault Refusal :=
  finish (.jle g target) s (.ok (jumpIf (condJle s.flags) target s))

/-- JBE (R115). -/
def execJbe (g : Byte) (target : Addr) (s : State) : Host.Outcome State Fault Refusal :=
  finish (.jbe g target) s (.ok (jumpIf (condJbe s.flags) target s))

/-- CALL (R117). -/
def execCall (g : Byte) (target : Addr) (s : State) : Host.Outcome State Fault Refusal :=
  finish (.call g target) s (callTo target s)

/-- CALLR: the target is the view's value, zero-extended or cut to 64 bits, read before the push (R118). -/
def execCallr (r : RegId) (s : State) : Host.Outcome State Fault Refusal :=
  finish (.callr r) s do
    let v ← operand s.params.nreg r
    callTo (((s.readView v).setWidth 128).setWidth 64) s

/-- RET: eight bytes popped into PC (R119). -/
def execRet (g : Byte) (s : State) : Host.Outcome State Fault Refusal :=
  finish (.ret g) s do
    let (v, s') ← s.pop 8
    return s'.setPc v

/-- INT: trap entry (R122). -/
def execInt (g id : Byte) (s : State) : Host.Outcome State Fault Refusal :=
  finish (.int g id) s (trapEnter id s)

/-- IRET: trap return (R123). -/
def execIret (g : Byte) (s : State) : Host.Outcome State Fault Refusal :=
  finish (.iret g) s (trapReturn s)

end Sys2Proof.Machine
end

