-- ==== Sys2Proof/Machine/DataMove.lean ====
section
/-! DEFINITION. The data-move family 0x00 (41_data_move.md R77 to R82). No instruction of it touches a flag. -/

namespace Sys2Proof.Machine

/-- `reg <- MemRead(ea, n)`: the load of R79 and R81, `n` the width of the destination view. -/
def loadView (s : State) (dest : RegId) (ea : Addr) : Except Fault State := do
  let d ← operand s.params.nreg dest
  let v ← s.memRead ea d.width.bytes
  return s.writeView d v

/-- `MemWrite(ea, n, x[src])`: the store of R80 and R82, `n` the width of the source view. -/
def storeView (s : State) (src : RegId) (ea : Addr) : Except Fault State := do
  let r ← operand s.params.nreg src
  s.memWrite ea r.width.bytes (s.readView r)

/-- MOV: one view copied to another of the same width (R77). -/
def execMov (dest src : RegId) (s : State) : Host.Outcome State Fault Refusal :=
  finish (.mov dest src) s do
    let d ← operand s.params.nreg dest
    let r ← operand s.params.nreg src
    sameWidth d r
    return s.writeView d (s.readReg r.reg d.width)

/-- MOVI: an immediate as wide as the destination view (R78). -/
def execMovi (dest : RegId) (imm : BitVec 128) (s : State) : Host.Outcome State Fault Refusal :=
  finish (.movi dest imm) s do
    let d ← operand s.params.nreg dest
    return s.writeView d (imm.setWidth d.width.bits)

/-- LDL: load at a local address (R79). -/
def execLdl (dest : RegId) (addr : Addr) (s : State) : Host.Outcome State Fault Refusal :=
  finish (.ldl dest addr) s (loadView s dest (s.localEA addr))

/-- STL: store at a local address (R80). -/
def execStl (src : RegId) (addr : Addr) (s : State) : Host.Outcome State Fault Refusal :=
  finish (.stl src addr) s (storeView s src (s.localEA addr))

/-- LDG: load at a global address (R81). -/
def execLdg (dest : RegId) (addr : Addr) (s : State) : Host.Outcome State Fault Refusal :=
  finish (.ldg dest addr) s (loadView s dest (globalEA addr))

/-- STG: store at a global address (R82). -/
def execStg (src : RegId) (addr : Addr) (s : State) : Host.Outcome State Fault Refusal :=
  finish (.stg src addr) s (storeView s src (globalEA addr))

end Sys2Proof.Machine
end

