-- ==== Sys2Proof/Machine/Halt.lean ====
section
/-! DEFINITION. HLT, family 0xFF (45_halt.md R125). -/

namespace Sys2Proof.Machine

/-- HLT: RUNNING cleared; the other flags, and PC past the HLT, stay (R125). -/
def execHlt (var g : Byte) (s : State) : Host.Outcome State Fault Refusal :=
  finish (.hlt var g) s (.ok { s with flags := { s.flags with running := false } })

end Sys2Proof.Machine
end

