-- ==== Sys2Proof/Machine/Stack.lean ====
section
/-! DEFINITION. The stack family 0x02 (43_stack.md R101 to R107). No instruction of it touches a flag. -/

namespace Sys2Proof.Machine

/-- PUSH: the view is read before SP moves (R101). -/
def execPush (src : RegId) (s : State) : Host.Outcome State Fault Refusal :=
  finish (.push src) s do
    let r ← operand s.params.nreg src
    s.push r.width.bytes (s.readView r)

/-- POP: SP moves first, then the destination is written (R102). -/
def execPop (dest : RegId) (s : State) : Host.Outcome State Fault Refusal :=
  finish (.pop dest) s do
    let d ← operand s.params.nreg dest
    let (v, s') ← s.pop d.width.bytes
    return s'.writeView d v

/-- PUSHI128 (R103). -/
def execPushi128 (g : Byte) (imm : BitVec 128) (s : State) : Host.Outcome State Fault Refusal :=
  finish (.pushi128 g imm) s (s.push 16 imm)

/-- PUSHI64 (R104). -/
def execPushi64 (g : Byte) (imm : BitVec 64) (s : State) : Host.Outcome State Fault Refusal :=
  finish (.pushi64 g imm) s (s.push 8 imm)

/-- PUSHI32 (R105). -/
def execPushi32 (g : Byte) (imm : BitVec 32) (s : State) : Host.Outcome State Fault Refusal :=
  finish (.pushi32 g imm) s (s.push 4 imm)

/-- PUSHI16 (R106). -/
def execPushi16 (g : Byte) (imm : BitVec 16) (s : State) : Host.Outcome State Fault Refusal :=
  finish (.pushi16 g imm) s (s.push 2 imm)

/-- PUSHI8 (R107). -/
def execPushi8 (g : Byte) (imm : BitVec 8) (s : State) : Host.Outcome State Fault Refusal :=
  finish (.pushi8 g imm) s (s.push 1 imm)

end Sys2Proof.Machine
end

