-- ==== Sys2Proof/Machine/Dispatch.lean ====
section
/-! DEFINITION. `exec`: one arm per instruction of spec/opcode_table.json, each one call of its meaning (40_step.md
R73). The state it is given holds the post-operand PC (R69). -/

namespace Sys2Proof.Machine

def exec (i : Instr) (s : State) : Host.Outcome State Fault Refusal :=
  match i with
  | .mov dest src => Sys2Proof.Machine.execMov dest src s
  | .movi dest imm => Sys2Proof.Machine.execMovi dest imm s
  | .ldl dest addr => Sys2Proof.Machine.execLdl dest addr s
  | .stl src addr => Sys2Proof.Machine.execStl src addr s
  | .ldg dest addr => Sys2Proof.Machine.execLdg dest addr s
  | .stg src addr => Sys2Proof.Machine.execStg src addr s
  | .sum dest src1 src2 => Sys2Proof.Machine.execSum dest src1 src2 s
  | .sub dest src1 src2 => Sys2Proof.Machine.execSub dest src1 src2 s
  | .cmp a b => Sys2Proof.Machine.execCmp a b s
  | .mul dest src1 src2 => Sys2Proof.Machine.execMul dest src1 src2 s
  | .div dest src1 src2 => Sys2Proof.Machine.execDiv dest src1 src2 s
  | .idiv dest src1 src2 => Sys2Proof.Machine.execIdiv dest src1 src2 s
  | .push src => Sys2Proof.Machine.execPush src s
  | .pop dest => Sys2Proof.Machine.execPop dest s
  | .pushi128 g imm => Sys2Proof.Machine.execPushi128 g imm s
  | .pushi64 g imm => Sys2Proof.Machine.execPushi64 g imm s
  | .pushi32 g imm => Sys2Proof.Machine.execPushi32 g imm s
  | .pushi16 g imm => Sys2Proof.Machine.execPushi16 g imm s
  | .pushi8 g imm => Sys2Proof.Machine.execPushi8 g imm s
  | .je g target => Sys2Proof.Machine.execJe g target s
  | .jne g target => Sys2Proof.Machine.execJne g target s
  | .jl g target => Sys2Proof.Machine.execJl g target s
  | .jb g target => Sys2Proof.Machine.execJb g target s
  | .jle g target => Sys2Proof.Machine.execJle g target s
  | .jbe g target => Sys2Proof.Machine.execJbe g target s
  | .call g target => Sys2Proof.Machine.execCall g target s
  | .callr r => Sys2Proof.Machine.execCallr r s
  | .ret g => Sys2Proof.Machine.execRet g s
  | .int g id => Sys2Proof.Machine.execInt g id s
  | .iret g => Sys2Proof.Machine.execIret g s
  | .hlt var g => Sys2Proof.Machine.execHlt var g s

end Sys2Proof.Machine
end

