-- ==== Sys2Proof/Machine/Fetch.lean ====
section
/-! DEFINITION. The fetch half of a step (40_step.md R67, R68, R71, R72), the trace hook (R75), the loader
(70_reset_and_hazards.md R142, R143), and placing an instruction where the next fetch reads. -/

namespace Sys2Proof.Machine

/-- What the fetch half of a step comes to. -/
inductive Fetched where
  /-- The core is halted: nothing is read or written (R67). -/
  | halted
  /-- A fault of the fetch, taken: the state the step ends in. -/
  | stopped (s : State)
  /-- An instruction, and the state in which PC is past it (R69). -/
  | got (i : Instr) (s : State)
deriving DecidableEq, Repr

/-- Header fetch, length, trailing fetch (R68). Both fetches are local, each at the PC of its own moment; the bytes
consumed by a fault are those of R72: 3 for the header fetch and for an unknown family or variant, `3 + l` for the
trailing fetch. -/
def State.fetch (s : State) : Fetched :=
  if s.flags.running then
    match s.fetchBytes (s.localEA s.pc) 3 with
    | .error f => .stopped (takeFault f s.pc none (s.setPc (s.pc + 3)))
    | .ok hdr =>
      let fam := byteAt hdr 0
      let var := byteAt hdr 1
      match decodeHeader s.params.idivEnabled fam var (byteAt hdr 2) with
      | none => .stopped (takeFault .unknownEncoding s.pc (some (fam, var)) (s.setPc (s.pc + 3)))
      | some (l, build) =>
        match s.fetchBytes (s.localEA (s.pc + 3)) l with
        | .error f =>
          .stopped (takeFault f s.pc (some (fam, var)) (s.setPc (s.pc + 3 + BitVec.ofNat 64 l)))
        | .ok t => .got (build t) (s.setPc (s.pc + 3 + BitVec.ofNat 64 l))
  else .halted

/-- What the optional trace hook receives in the step from `s`: `fam`, `var` and `g`, once the header is fetched, and
nothing from a halted core (R67, R75). An output: no step depends on it. -/
def State.traceHook (s : State) : Option (Byte × Byte × Byte) :=
  if s.flags.running then
    match s.fetchBytes (s.localEA s.pc) 3 with
    | .error _ => none
    | .ok hdr => some (byteAt hdr 0, byteAt hdr 1, byteAt hdr 2)
  else none

/-- The initialisation contract with a BIOS image (R142); `none` where the image does not fit, a fatal startup error
of the host before any step (R143). -/
def State.init (p : Params) (image : List Byte) : Option State :=
  if p.loadOffset.toNat + image.length ≤ p.memSize then
    some { State.boot p with mem := (State.boot p).mem.writeBytes p.loadOffset.toNat image }
  else none

/-- The bytes `bs` stored one by one at the local addresses from `a` on, those in bounds only. -/
def State.placeLocal (s : State) (a : Addr) : List Byte → State
  | [] => s
  | b :: bs =>
    let ea := (s.localEA a).toNat
    (if ea < s.params.memSize then { s with mem := s.mem.write ea b } else s).placeLocal (a + 1) bs

/-- The bytes `bs` stored where the next step fetches, on a running core (R67, R68). -/
def State.placeAtPc (s : State) (bs : List Byte) : State :=
  { s with flags := { s.flags with running := true } }.placeLocal s.pc bs

end Sys2Proof.Machine
end

