-- ==== Sys2Proof/Machine/Step.lean ====
section
/-! DEFINITION. One step of the core (40_step.md R67, R68): fetch, then execute. It always answers a next state: a
fault is taken inside the step (R71, R128). -/

namespace Sys2Proof.Machine

/-- One invocation of the single-step operation (R67, R68, R74). -/
def step (s : State) : Host.Outcome State Fault Refusal :=
  match s.fetch with
  | .halted => .next s
  | .stopped s' => .next s'
  | .got i s' => exec i s'

/-- `s` with the instruction of a table word stored where the next step fetches. -/
def State.withFetchWord (s : State) (nbits w : Nat) : State := s.placeAtPc (tableBytes nbits w)

end Sys2Proof.Machine
end

