-- ==== Sys2Proof/Machine/Multi.lean ====
section
/-! DEFINITION. Several cores on one Memory Image (10_state.md R27; 20_memory.md R43, R48, R49; 60_exceptions.md
R139), as steps of `Machine.step` interleaved at instruction granularity. The schedule and each core's initial
registers are arguments (decision D25). -/

namespace Sys2Proof.Machine

/-- What a core owns: its Register File and Flag Register (R27), and the reports it has emitted (R130). -/
structure CoreCtx where
  regs : List Word
  flags : Flags
  reports : List FaultReport
deriving DecidableEq, Repr

/-- The cores and the one Memory Image they share (R26, R27). -/
structure Multi where
  cores : List CoreCtx
  mem : Memory
  params : Params
deriving DecidableEq, Repr

/-- Core `x` on the shared memory, as a single-core state. -/
def Multi.view (m : Multi) (x : CoreCtx) : State :=
  { regs := x.regs, flags := x.flags, mem := m.mem, params := m.params, reports := x.reports }

/-- What a core owns of a single-core state. -/
def State.ctx (s : State) : CoreCtx := { regs := s.regs, flags := s.flags, reports := s.reports }

/-- One step of core `c`: the others keep their registers and flags and see the memory it leaves (R43, R48). A
schedule entry that names no core does nothing (DESIGN CHOICE, assumption log 11). -/
def Multi.stepCore (m : Multi) (c : Nat) : Host.Outcome Multi Fault Refusal :=
  match m.cores[c]? with
  | none => .next m
  | some x =>
    match step (m.view x) with
    | .next s => .next { m with cores := m.cores.set c s.ctx, mem := s.mem }
    | .fault f => .fault f
    | .refused r => .refused r

/-- A run under a schedule of core numbers (R48, R49). -/
def Multi.run (m : Multi) : List Nat → Host.Outcome Multi Fault Refusal
  | [] => .next m
  | c :: cs =>
    match m.stepCore c with
    | .next m' => m'.run cs
    | .fault f => .fault f
    | .refused r => .refused r

/-- The Register File a core starts with where its launch names none: the single-core values of R29 (R139, decision
D25). -/
def defaultFile (p : Params) : List Word := (State.boot p).regs

/-- The cores of a launch on a loaded memory, one per entry of `files`: the Register File given, or `none` for the default
of R29; each core with the flags of R29 (R139, decision D25). `none` where the image does not fit (R143), or where a
file does not hold the `NREG` registers of R8 (DESIGN CHOICE, assumption log 11). -/
def Multi.launch (p : Params) (image : List Byte) (files : List (Option (List Word))) : Option Multi :=
  let regs := files.map fun f => f.getD (defaultFile p)
  if regs.all fun r => r.length == p.nreg then
    (State.init p image).map fun s =>
      { cores := regs.map fun r => { regs := r, flags := s.flags, reports := [] }
        mem := s.mem
        params := p }
  else none

/-- `k` cores, each started with the single-core values of R29 (R139, decision D25). -/
def Multi.launchDefault (p : Params) (image : List Byte) (k : Nat) : Option Multi :=
  Multi.launch p image (List.replicate k none)

end Sys2Proof.Machine
end

