-- ==== Sys2Proof/Safety.lean ====
section
/-! DEFINITION. The terms claims are stated in: what is left unchanged, what a store or a push leaves, what taking a
fault leaves, the invariant of the machine, and a run without faults. -/

namespace Sys2Proof

open Machine

/-! ### Frames -/

/-- Every byte of memory reads as before. -/
def SameMem (s t : State) : Prop := ∀ a, t.mem.read a = s.mem.read a

/-- Every byte of memory outside the `n` bytes from `ea` reads as before. -/
def SameMemOutside (s t : State) (ea n : Nat) : Prop := ∀ a, a < ea ∨ ea + n ≤ a → t.mem.read a = s.mem.read a

/-- The `n` bytes from `ea` hold `v`, its least significant byte first (R37, R39). -/
def MemHolds (t : State) (ea n : Nat) (v : BitVec (8 * n)) : Prop :=
  ∀ k, k < n → t.mem.read (ea + k) = v.extractLsb' (8 * k) 8

/-- Bit `k` of the little-endian value that starts at address `ea` (R36, R39). -/
def memBit (s : State) (ea k : Nat) : Bool := (s.mem.read (ea + k / 8)).getLsbD (k % 8)

/-- Every register but those in `P` holds what it held. -/
def SameRegsBut (s t : State) (P : Nat → Prop) : Prop := ∀ j, ¬ P j → t.reg j = s.reg j

/-- The parameters and the number of registers are unchanged, and no fault is reported. -/
def Quiet (s t : State) : Prop :=
  t.params = s.params ∧ t.regs.length = s.regs.length ∧ t.reports = s.reports

/-- `w` with bits 63:0 replaced by `a` and bits 127:64 kept (R18). -/
def withAddr (w : Word) (a : Addr) : Word := w.extractLsb' 64 64 ++ a

/-- The register id `id` is valid and names `v` (R11). -/
abbrev Machine.State.names (s : State) (id : RegId) (v : View) : Prop := viewOf s.params.nreg id = some v

/-! ### Shapes of effect -/

/-- The address of the slot a push of `n` bytes writes (R98). -/
def pushSlot (s : State) (n : Nat) : Addr := s.localEA (s.addr s.params.spIdx - BitVec.ofNat 64 n)

/-- The address a pop reads (R99). -/
def popSlot (s : State) : Addr := s.localEA (s.addr s.params.spIdx)

/-- What `push(n, v)` leaves, registers other than SP apart (R98): SP moved down by `n` with its upper half kept, the
slot holding `v`, no other byte changed, the flags kept, and no fault. -/
def Pushed (s t : State) (n : Nat) (v : BitVec (8 * n)) : Prop :=
  t.reg s.params.spIdx = withAddr (s.reg s.params.spIdx) (s.addr s.params.spIdx - BitVec.ofNat 64 n) ∧
  MemHolds t (pushSlot s n).toNat n v ∧ SameMemOutside s t (pushSlot s n).toNat n ∧ t.flags = s.flags ∧ Quiet s t

/-- What an arithmetic instruction leaves (R84, R92): `d` holds the `N`-bit result `q`, the bits of its register outside the
view and every other register are kept, the comparison flags come from the unsigned comparison of the operands `a`
and `b`, RUNNING and memory are kept, and no fault is reported. -/
def AluDone (s t : State) (d : View) (a b : BitVec d.width.bits) (q : Nat) : Prop :=
  (t.readView d).toNat = q ∧
  (∀ k, d.width.bits ≤ k → (t.reg d.reg).getLsbD k = (s.reg d.reg).getLsbD k) ∧
  SameRegsBut s t (fun j => j = d.reg) ∧ SameMem s t ∧
  t.flags = { running := s.flags.running, equals := decide (a.toNat = b.toNat), less := decide (a.toNat < b.toNat),
              more := decide (b.toNat < a.toNat) } ∧
  Quiet s t

/-- What taking fault `f` in the execution of `i` leaves (R71, R72, R129, R130): no register, comparison flag or byte
of memory changed (`s` already holds the PC past the instruction), RUNNING cleared only where `FAULT_HALTS`, and one
report, with the address `i` was fetched at. -/
def FaultTaken (i : Instr) (f : Fault) (s t : State) : Prop :=
  t.regs = s.regs ∧ SameMem s t ∧ t.params = s.params ∧
  t.flags = { s.flags with running := s.flags.running && !s.params.faultHalts } ∧
  t.reports = { fault := f, startPc := s.pc - BitVec.ofNat 64 (encode i).length, header := some (i.fam, i.var) } :: s.reports

/-- The instruction faults as `f`, with none of its effects. -/
def TakesFault (i : Instr) (f : Fault) (s : State) : Prop := ∃ t, exec i s = .next t ∧ FaultTaken i f s t

/-- An instruction whose operands are not legal is IllegalInstructionFault (R11, R60, R131): the first invalid id in the order
`g`, `t[0]`, `t[1]`, else a width mismatch. -/
def RejectsOperands (i : Instr) (s : State) : Prop :=
  (∀ id, i.operandIds.find? (fun x => (viewOf s.params.nreg x).isNone) = some id → TakesFault i (.invalidRegister id) s) ∧
  (i.idsValid s.params.nreg = true → i.widthsAgree = false → TakesFault i .widthMismatch s)

/-- The bytes of an instruction in memory order, and what the decoder makes of them with any bytes after them. -/
def EncodedAs (i : Instr) (bs : List Byte) : Prop := encode i = bs ∧ ∀ rest, decode true (bs ++ rest) = .ok (i, rest)

/-- The state after a fault of the fetch that consumed `n` bytes (R71, R72). -/
def fetchFaulted (s : State) (n : Nat) (f : Fault) (header : Option (Byte × Byte)) : State :=
  { s.setPc (s.pc + BitVec.ofNat 64 n) with
    flags := { s.flags with running := s.flags.running && !s.params.faultHalts }
    reports := { fault := f, startPc := s.pc, header := header } :: s.reports }

/-- Byte `k` of the instruction at the program counter. -/
def fetchedByte (s : State) (k : Nat) : Byte := s.mem.read ((s.localEA s.pc).toNat + k)

/-- The trailing length of the instruction at the program counter, from its header (R62). -/
def fetchedLength (s : State) : Option Nat :=
  decodeLength s.params.idivEnabled (fetchedByte s 0) (fetchedByte s 1) (fetchedByte s 2)

/-- The bytes a faulting step consumes (R72): 3 where the header fetch faults or the family or variant is unknown, else the
whole instruction. -/
def consumedBytes (s : State) : Nat :=
  if s.inBounds (s.localEA s.pc) 3 then 3 + (fetchedLength s).getD 0 else 3

/-- Where INT leaves register `i` (R124): `LocalEA(S0 - 16*(i+1))`, with `S0` the SP before. -/
def frameSlot (s : State) (i : Nat) : Addr := s.localEA (s.addr s.params.spIdx - BitVec.ofNat 64 (16 * (i + 1)))

/-- What INT saves for register `i` (R124): its value, but for SP, which has moved by 16 for each register before it. -/
def frameValue (s : State) (i : Nat) : Word :=
  if i = s.params.spIdx then
    withAddr (s.reg s.params.spIdx) (s.addr s.params.spIdx - BitVec.ofNat 64 (16 * s.params.spIdx))
  else s.reg i

/-- The word of 16 bytes at an address. -/
def wordAt (s : State) (ea : Addr) : Word := BitVec.ofNat 128 (leNat (s.mem.readBytes ea.toNat 16))

/-- The LO that IRET restores: bits 63:0 of the second word it pops, read under the LO before it (R123). -/
def iretLo (s : State) : Addr := (wordAt s (s.addr s.params.spIdx + 16 + s.addr s.params.loIdx)).setWidth 64

/-- The SP that IRET restores with the third word it pops, which is read under the LO just restored (R123). -/
def iretSp (s : State) : Addr := (wordAt s (s.addr s.params.spIdx + 32 + iretLo s)).setWidth 64

/-- Where IRET pops register `i` from (R123): IP and LO at the SP and LO before it; SP under the LO just restored; PC
and every lower register from the SP and LO just restored. -/
def iretSlot (s : State) (i : Nat) : Addr :=
  if i = s.params.ipIdx then s.addr s.params.spIdx + s.addr s.params.loIdx
  else if i = s.params.loIdx then s.addr s.params.spIdx + 16 + s.addr s.params.loIdx
  else if i = s.params.spIdx then s.addr s.params.spIdx + 32 + iretLo s
  else iretSp s + BitVec.ofNat 64 (16 * (s.params.pcIdx - i)) + iretLo s

/-! ### Invariants and runs -/

/-- At most one comparison flag holds: none before the first ALU instruction, exactly one after any (R24). -/
def Machine.Flags.atMostOne (f : Flags) : Bool :=
  !(f.equals && f.less) && !(f.equals && f.more) && !(f.less && f.more)

/-- The memory is in canonical form and lists no byte outside the Memory Image (R26, R35). -/
def Machine.State.memSound (s : State) : Bool :=
  s.mem.wf && s.mem.cells.all fun c => decide (c.1 < s.params.memSize)

/-- The Register File holds `NREG` registers, at least the 5 that the rules need (R8; decision D3): so PC, SP, LO and IP
are four registers of it. -/
def Machine.State.regsSound (s : State) : Bool :=
  decide (5 ≤ s.params.nreg) && decide (s.regs.length = s.params.nreg)

/-- The invariant of every reachable state. -/
def Machine.State.Inv (s : State) : Prop := s.regsSound = true ∧ s.memSound = true ∧ s.flags.atMostOne = true

/-- Several cores: each with the shared memory has the invariant of one. -/
def Machine.Multi.Inv (m : Multi) : Prop := ∀ x, x ∈ m.cores → (m.view x).Inv

/-- The same registers, flags, memory and parameters: the states differ at most in the reports emitted (R30). -/
def Machine.State.SameArch (s t : State) : Prop :=
  s.regs = t.regs ∧ s.flags = t.flags ∧ s.mem = t.mem ∧ s.params = t.params

/-- No step of the first `k` steps from `s` reports a fault (R76, R130). -/
def FaultFreeRun (k : Nat) (s : State) : Prop := ∃ t, core.run k s = .next t ∧ t.reports = s.reports

end Sys2Proof
end

