-- ==== Sys2Proof/Certificates/Slice0/Obligations.lean ====
section
/-! DEFINITION. The statements for the provers. Each docstring names the rules of spec/ it formalises. An instruction is
executed in a state whose PC is already past it (40_step.md R69), so `s` below is that state. Two premises
rule out data that no run reaches, and every step keeps both (`Obligations.StepKeepsInvariant`): `s.mem.wf = true`, the
canonical form, where a statement reads memory after a write; and `s.regsSound = true`, a Register File of `NREG`
registers, at least 5, where it reads a register after a write. A premise on the number of registers says which
machines a statement is about, for `NREG` is a parameter (R6). -/

open Sys2Proof Sys2Proof.Machine

/-! ### Encoding -/

/-- R10: an id names the physical register `id div 5` at the width `id mod 5`, where there is such a register (R11);
with NREG = 51 id 255 alone names none; and the id of register `i` at width code `w` is `5*i + w` (R16). -/
def Obligations.RegisterIdDecomposition : Prop :=
  ∀ (nreg : Nat) (id : RegId), (viewOf nreg id = none ↔ nreg ≤ id.toNat / 5) ∧ (viewOf 51 id = none ↔ id = 255) ∧
    ∀ v, viewOf nreg id = some v →
      v.reg = id.toNat / 5 ∧ v.width.code = id.toNat % 5 ∧
      v.width.bits = [128, 64, 32, 16, 8].getD (id.toNat % 5) 0 ∧ idOf v = id

/-- R62: `decodeLength`, in the words of its own pseudocode. -/
def Obligations.DecodeLengthIsTheTable : Prop :=
  ∀ (idivEnabled : Bool) (fam var g : Byte),
    decodeLength idivEnabled fam var g =
      if fam = 0x00 ∧ var ≤ 0x05 then [1, 16 >>> (g.toNat % 5), 8, 8, 8, 8][var.toNat]?
      else if fam = 0x01 ∧ var ≤ 0x04 then [2, 2, 1, 2, 2][var.toNat]?
      else if fam = 0x01 ∧ var = 0x05 ∧ idivEnabled = true then some 2
      else if fam = 0x02 ∧ var ≤ 0x06 then [0, 0, 16, 8, 4, 2, 1][var.toNat]?
      else if fam = 0x03 ∧ var ≤ 0x0A then [8, 8, 8, 8, 8, 8, 8, 0, 0, 1, 0][var.toNat]?
      else if fam = 0xFF then some 0
      else none

/-- Decode and encode agree: the bytes of every instruction whose immediate fits its field decode to it, whatever
follows them, invalid register ids included (IDIV where it is enabled). -/
def Obligations.DecodeOfEncode : Prop :=
  ∀ (idivEnabled : Bool) (i : Instr) (rest : List Byte), i.immFits = true →
    (idivEnabled = true ∨ ∀ d a b, i ≠ .idiv d a b) →
    decode idivEnabled (encode i ++ rest) = .ok (i, rest)

/-- Encode and decode agree the other way: the bytes an instruction was decoded from are its encoding, so no bit of an
encoding is dropped, and its immediate fits. -/
def Obligations.EncodeOfDecode : Prop :=
  ∀ (idivEnabled : Bool) (bs rest : List Byte) (i : Instr),
    decode idivEnabled bs = .ok (i, rest) → bs = encode i ++ rest ∧ i.immFits = true

/-- Words written out from the spec's encodings, one or more per family, decode to the instructions they stand for
(41_data_move.md to 45_halt.md, the encoding lines and examples). -/
def Obligations.SpecWordsDecode : Prop :=
  decode true [0x00, 0x00, 0x02, 0x07] = .ok (.mov 2 7, []) ∧
  decode true [0x00, 0x01, 0x07, 0x05, 0x00, 0x00, 0x00] = .ok (.movi 7 5, []) ∧
  decode true [0x00, 0x05, 0x06, 0x00, 0x20, 0, 0, 0, 0, 0, 0] = .ok (.stg 6 0x2000, []) ∧
  decode true [0x01, 0x05, 0x03, 0x08, 0x0D] = .ok (.idiv 3 8 13, []) ∧
  decode true [0x02, 0x04, 0x00, 0xBE, 0xBA, 0xFE, 0xCA] = .ok (.pushi32 0 0xCAFEBABE, []) ∧
  decode true [0x03, 0x06, 0x00, 0x30, 0x04, 0, 0, 0, 0, 0, 0] = .ok (.call 0 0x430, []) ∧
  decode true [0x03, 0x09, 0x00, 0x02] = .ok (.int 0 2, []) ∧
  decode true [0xFF, 0x37, 0xFE] = .ok (.hlt 0x37 0xFE, [])

/-- R65: the register-operand byte of an instruction without a register operand, and the variant byte of HLT, have no
effect, whatever their value. -/
def Obligations.IgnoredBytesHaveNoEffect : Prop :=
  ∀ (g g' var var' : Byte) (s : State),
    (∀ v, exec (.pushi128 g v) s = exec (.pushi128 g' v) s) ∧ (∀ v, exec (.pushi64 g v) s = exec (.pushi64 g' v) s) ∧
    (∀ v, exec (.pushi32 g v) s = exec (.pushi32 g' v) s) ∧ (∀ v, exec (.pushi16 g v) s = exec (.pushi16 g' v) s) ∧
    (∀ v, exec (.pushi8 g v) s = exec (.pushi8 g' v) s) ∧
    (∀ a, exec (.je g a) s = exec (.je g' a) s) ∧ (∀ a, exec (.jne g a) s = exec (.jne g' a) s) ∧
    (∀ a, exec (.jl g a) s = exec (.jl g' a) s) ∧ (∀ a, exec (.jb g a) s = exec (.jb g' a) s) ∧
    (∀ a, exec (.jle g a) s = exec (.jle g' a) s) ∧ (∀ a, exec (.jbe g a) s = exec (.jbe g' a) s) ∧
    (∀ a, exec (.call g a) s = exec (.call g' a) s) ∧ exec (.ret g) s = exec (.ret g') s ∧
    (∀ id, exec (.int g id) s = exec (.int g' id) s) ∧ exec (.iret g) s = exec (.iret g') s ∧
    exec (.hlt var g) s = exec (.hlt var' g') s

/-! ### Registers and memory -/

/-- R12 and R13: a read through a view gives its low bits; a write through a view replaces them, keeps every other bit of the
register, and changes nothing else. -/
def Obligations.ViewsReadAndWriteLowBits : Prop :=
  ∀ (s : State) (v : View) (x : BitVec v.width.bits), v.reg < s.regs.length →
    (∀ k, (s.readView v).getLsbD k = (decide (k < v.width.bits) && (s.reg v.reg).getLsbD k)) ∧
    (∀ j k, ((s.writeView v x).reg j).getLsbD k =
      if j = v.reg ∧ k < v.width.bits then x.getLsbD k else (s.reg j).getLsbD k) ∧
    (s.writeView v x).flags = s.flags ∧ SameMem s (s.writeView v x) ∧ Quiet s (s.writeView v x)

/-- R36: in bounds `MemRead` gives the bytes little-endian; out of bounds it is MemoryFault with the effective address. -/
def Obligations.MemReadIsLittleEndian : Prop :=
  ∀ (s : State) (ea : Addr) (n : Nat),
    if ea.toNat + n ≤ s.params.memSize then
      ∃ v, s.memRead ea n = .ok v ∧ ∀ k, k < n → v.extractLsb' (8 * k) 8 = s.mem.read (ea.toNat + k)
    else s.memRead ea n = .error (.memory ea)

/-- R37: in bounds `MemWrite` stores the bytes little-endian and changes no other byte, register, flag or parameter; out of
bounds it is MemoryFault with the effective address. -/
def Obligations.MemWriteIsLittleEndian : Prop :=
  ∀ (s : State) (ea : Addr) (n : Nat) (v : BitVec (8 * n)), s.mem.wf = true →
    if ea.toNat + n ≤ s.params.memSize then
      ∃ t, s.memWrite ea n v = .ok t ∧ MemHolds t ea.toNat n v ∧ SameMemOutside s t ea.toNat n ∧
        t.regs = s.regs ∧ t.flags = s.flags ∧ Quiet s t
    else s.memWrite ea n v = .error (.memory ea)

/-- A value stored is loaded back at the same address and width, whatever the alignment (R36, R37, R41). -/
def Obligations.StoreThenLoadReturnsValue : Prop :=
  ∀ (s t : State) (ea : Addr) (n : Nat) (v : BitVec (8 * n)), s.mem.wf = true →
    s.memWrite ea n v = .ok t → t.memRead ea n = .ok v

/-! ### Data move -/

/-- R77, MOV: the low bits of the destination register become those of the source, as wide as the shared view; illegal operands
fault; nothing else changes. -/
def Obligations.MovCopiesView : Prop :=
  ∀ (dest src : RegId) (s : State), s.regsSound = true →
    EncodedAs (.mov dest src) [0x00, 0x00, dest, src] ∧ RejectsOperands (.mov dest src) s ∧
    ∀ d r, s.names dest d → s.names src r → d.width = r.width →
      ∃ t, exec (.mov dest src) s = .next t ∧
        (∀ k, (t.reg d.reg).getLsbD k = if k < d.width.bits then (s.reg r.reg).getLsbD k else (s.reg d.reg).getLsbD k) ∧
        SameRegsBut s t (fun j => j = d.reg) ∧ SameMem s t ∧ t.flags = s.flags ∧ Quiet s t

/-- R78, MOVI: the low bits of the destination register become the immediate, as wide as the view; nothing else changes. -/
def Obligations.MoviLoadsImmediate : Prop :=
  ∀ (dest : RegId) (imm : BitVec 128) (s : State), s.regsSound = true →
    ((Instr.movi dest imm).immFits = true →
      EncodedAs (.movi dest imm) ([0x00, 0x01, dest] ++ leBytes (regWidth dest).bytes imm.toNat)) ∧
    RejectsOperands (.movi dest imm) s ∧
    ∀ d, s.names dest d →
      ∃ t, exec (.movi dest imm) s = .next t ∧
        (∀ k, (t.reg d.reg).getLsbD k = if k < d.width.bits then imm.getLsbD k else (s.reg d.reg).getLsbD k) ∧
        SameRegsBut s t (fun j => j = d.reg) ∧ SameMem s t ∧ t.flags = s.flags ∧ Quiet s t

/-- R79 and R81, LDL and LDG: in bounds the low bits of the destination register become the bytes at the local (global) address;
out of bounds it is MemoryFault with the effective address; nothing else changes. -/
def Obligations.LoadsReadMemory : Prop :=
  ∀ (dest : RegId) (addr ea : Addr) (s : State) (i : Instr), s.regsSound = true →
    (i = .ldl dest addr ∧ ea = addr + s.addr s.params.loIdx) ∨ (i = .ldg dest addr ∧ ea = addr) →
    EncodedAs (.ldl dest addr) ([0x00, 0x02, dest] ++ leBytes 8 addr.toNat) ∧
    EncodedAs (.ldg dest addr) ([0x00, 0x04, dest] ++ leBytes 8 addr.toNat) ∧ RejectsOperands i s ∧
    ∀ d, s.names dest d →
      if ea.toNat + d.width.bytes ≤ s.params.memSize then
        ∃ t, exec i s = .next t ∧
          (∀ k, (t.reg d.reg).getLsbD k =
            if k < d.width.bits then memBit s ea.toNat k else (s.reg d.reg).getLsbD k) ∧
          SameRegsBut s t (fun j => j = d.reg) ∧ SameMem s t ∧ t.flags = s.flags ∧ Quiet s t
      else TakesFault i (.memory ea) s

/-- R80 and R82, STL and STG: in bounds the bytes at the local (global) address become the low bytes of the source register; out
of bounds it is MemoryFault with the effective address and no byte is written; nothing else changes. -/
def Obligations.StoresWriteMemory : Prop :=
  ∀ (src : RegId) (addr ea : Addr) (s : State) (i : Instr), s.mem.wf = true →
    (i = .stl src addr ∧ ea = addr + s.addr s.params.loIdx) ∨ (i = .stg src addr ∧ ea = addr) →
    EncodedAs (.stl src addr) ([0x00, 0x03, src] ++ leBytes 8 addr.toNat) ∧
    EncodedAs (.stg src addr) ([0x00, 0x05, src] ++ leBytes 8 addr.toNat) ∧ RejectsOperands i s ∧
    ∀ r, s.names src r →
      if ea.toNat + r.width.bytes ≤ s.params.memSize then
        ∃ t, exec i s = .next t ∧
          (∀ k, k < r.width.bytes → t.mem.read (ea.toNat + k) = (s.reg r.reg).extractLsb' (8 * k) 8) ∧
          SameMemOutside s t ea.toNat r.width.bytes ∧ t.regs = s.regs ∧ t.flags = s.flags ∧ Quiet s t
      else TakesFault i (.memory ea) s

/-! ### Arithmetic -/

/-- R92 with R86, SUM: the result is `(u(a) + u(b)) mod 2^N`, the flags the unsigned comparison of the operands. -/
def Obligations.SumWraps : Prop :=
  ∀ (dest src1 src2 : RegId) (s : State), s.regsSound = true →
    EncodedAs (.sum dest src1 src2) [0x01, 0x00, dest, src1, src2] ∧ RejectsOperands (.sum dest src1 src2) s ∧
    ∀ d v1 v2, s.names dest d → s.names src1 v1 → s.names src2 v2 →
      d.width = v1.width → d.width = v2.width →
      ∃ t, exec (.sum dest src1 src2) s = .next t ∧
        AluDone s t d (s.readReg v1.reg d.width) (s.readReg v2.reg d.width)
          (((s.readReg v1.reg d.width).toNat + (s.readReg v2.reg d.width).toNat) % 2 ^ d.width.bits)

/-- R93 with R87, SUB: the result is `(u(a) - u(b)) mod 2^N` over the integers, the flags the unsigned comparison of the
operands, so that LESS is the borrow. -/
def Obligations.SubWraps : Prop :=
  ∀ (dest src1 src2 : RegId) (s : State), s.regsSound = true →
    EncodedAs (.sub dest src1 src2) [0x01, 0x01, dest, src1, src2] ∧ RejectsOperands (.sub dest src1 src2) s ∧
    ∀ d v1 v2, s.names dest d → s.names src1 v1 → s.names src2 v2 →
      d.width = v1.width → d.width = v2.width →
      ∃ t, exec (.sub dest src1 src2) s = .next t ∧
        AluDone s t d (s.readReg v1.reg d.width) (s.readReg v2.reg d.width)
          ((((s.readReg v1.reg d.width).toNat : Int) - ((s.readReg v2.reg d.width).toNat : Int)) %
            (2 ^ d.width.bits : Int)).toNat

/-- R95 with R88, MUL: the result is `(u(a) * u(b)) mod 2^N`. -/
def Obligations.MulKeepsLowHalf : Prop :=
  ∀ (dest src1 src2 : RegId) (s : State), s.regsSound = true →
    EncodedAs (.mul dest src1 src2) [0x01, 0x03, dest, src1, src2] ∧ RejectsOperands (.mul dest src1 src2) s ∧
    ∀ d v1 v2, s.names dest d → s.names src1 v1 → s.names src2 v2 →
      d.width = v1.width → d.width = v2.width →
      ∃ t, exec (.mul dest src1 src2) s = .next t ∧
        AluDone s t d (s.readReg v1.reg d.width) (s.readReg v2.reg d.width)
          (((s.readReg v1.reg d.width).toNat * (s.readReg v2.reg d.width).toNat) % 2 ^ d.width.bits)

/-- R96 with R89, DIV: the quotient truncated; by zero it is ArithmeticFault, with destination and flags unchanged (R85). -/
def Obligations.DivTruncates : Prop :=
  ∀ (dest src1 src2 : RegId) (s : State), s.regsSound = true →
    EncodedAs (.div dest src1 src2) [0x01, 0x04, dest, src1, src2] ∧ RejectsOperands (.div dest src1 src2) s ∧
    ∀ d v1 v2, s.names dest d → s.names src1 v1 → s.names src2 v2 →
      d.width = v1.width → d.width = v2.width →
      if (s.readReg v2.reg d.width).toNat = 0 then TakesFault (.div dest src1 src2) .divideByZero s
      else ∃ t, exec (.div dest src1 src2) s = .next t ∧
        AluDone s t d (s.readReg v1.reg d.width) (s.readReg v2.reg d.width)
          ((s.readReg v1.reg d.width).toNat / (s.readReg v2.reg d.width).toNat)

/-- R97 with R90, IDIV: the two's-complement quotient rounded toward zero, wrapped to the width (which only the most negative
value by -1 needs); by zero it is ArithmeticFault; the flags are the unsigned comparison (R84). Where IDIV is not
enabled its encoding is unknown. -/
def Obligations.IdivTruncatesTowardZero : Prop :=
  ∀ (dest src1 src2 : RegId) (s : State), s.regsSound = true →
    EncodedAs (.idiv dest src1 src2) [0x01, 0x05, dest, src1, src2] ∧
    (∀ rest, decode false ([0x01, 0x05, dest, src1, src2] ++ rest) = .error (.unknownEncoding 0x01 0x05)) ∧
    RejectsOperands (.idiv dest src1 src2) s ∧
    ∀ d v1 v2, s.names dest d → s.names src1 v1 → s.names src2 v2 →
      d.width = v1.width → d.width = v2.width →
      if (s.readReg v2.reg d.width).toNat = 0 then TakesFault (.idiv dest src1 src2) .divideByZero s
      else ∃ t, exec (.idiv dest src1 src2) s = .next t ∧
        AluDone s t d (s.readReg v1.reg d.width) (s.readReg v2.reg d.width)
          (((s.readReg v1.reg d.width).toInt.tdiv (s.readReg v2.reg d.width).toInt) % (2 ^ d.width.bits : Int)).toNat

/-- R94, CMP: the flags of the unsigned comparison; no register written. -/
def Obligations.CmpSetsFlagsOnly : Prop :=
  ∀ (a b : RegId) (s : State),
    EncodedAs (.cmp a b) [0x01, 0x02, a, b] ∧ RejectsOperands (.cmp a b) s ∧
    ∀ va vb, s.names a va → s.names b vb → va.width = vb.width →
      ∃ t, exec (.cmp a b) s = .next t ∧
        t.flags = { running := s.flags.running, equals := decide ((s.readView va).toNat = (s.readView vb).toNat)
                    less := decide ((s.readView va).toNat < (s.readView vb).toNat)
                    more := decide ((s.readView vb).toNat < (s.readView va).toNat) } ∧
        t.regs = s.regs ∧ SameMem s t ∧ Quiet s t

/-- R24: after an arithmetic instruction that reports no fault exactly one of LESS, EQUALS and MORE holds, whatever held
before. -/
def Obligations.AluLeavesExactlyOneFlag : Prop :=
  ∀ (i : Instr) (s t : State), i.fam = 0x01 → exec i s = .next t → t.reports = s.reports →
    (t.flags.less.toNat + t.flags.equals.toNat + t.flags.more.toNat = 1 ∧ t.flags.running = s.flags.running)

/-! ### Stack -/

/-- R101, PUSH: in bounds the view's value goes to the slot below SP and SP moves there; out of bounds it is MemoryFault with SP
and memory unchanged. The value is the one before SP moves, also for a view of SP. -/
def Obligations.PushStoresView : Prop :=
  ∀ (src : RegId) (s : State), s.regsSound = true → s.mem.wf = true →
    EncodedAs (.push src) [0x02, 0x00, src] ∧ RejectsOperands (.push src) s ∧
    ∀ r, s.names src r →
      if (pushSlot s r.width.bytes).toNat + r.width.bytes ≤ s.params.memSize then
        ∃ t, exec (.push src) s = .next t ∧ Pushed s t r.width.bytes (s.readView r) ∧
          SameRegsBut s t (fun j => j = s.params.spIdx)
      else TakesFault (.push src) (.memory (pushSlot s r.width.bytes)) s

/-- R102, POP: in bounds SP moves up, then the low bits of the destination become the bytes that were at SP; so a view of SP ends
with them, over the SP already moved. Out of bounds it is MemoryFault with SP and destination unchanged. -/
def Obligations.PopLoadsView : Prop :=
  ∀ (dest : RegId) (s : State), s.regsSound = true →
    EncodedAs (.pop dest) [0x02, 0x01, dest] ∧ RejectsOperands (.pop dest) s ∧
    ∀ d, s.names dest d →
      if (popSlot s).toNat + d.width.bytes ≤ s.params.memSize then
        ∃ t, exec (.pop dest) s = .next t ∧
          (∀ j k, (t.reg j).getLsbD k =
            if j = d.reg ∧ k < d.width.bits then memBit s (popSlot s).toNat k
            else if j = s.params.spIdx then
              (withAddr (s.reg s.params.spIdx) (s.addr s.params.spIdx + BitVec.ofNat 64 d.width.bytes)).getLsbD k
            else (s.reg j).getLsbD k) ∧
          SameMem s t ∧ t.flags = s.flags ∧ Quiet s t
      else TakesFault (.pop dest) (.memory (popSlot s)) s

/-- R103 to R107, PUSHI128 to PUSHI8: in bounds the immediate goes to the slot below SP and SP moves there; out of bounds it is
MemoryFault. -/
def Obligations.PushImmediates : Prop :=
  ∀ (g : Byte) (s : State) (n : Nat) (v : BitVec (8 * n)) (i : Instr) (var : Byte), s.regsSound = true → s.mem.wf = true →
    ((∃ h : n = 16, i = .pushi128 g (v.cast (by omega))) ∧ var = 0x02) ∨
    ((∃ h : n = 8, i = .pushi64 g (v.cast (by omega))) ∧ var = 0x03) ∨
    ((∃ h : n = 4, i = .pushi32 g (v.cast (by omega))) ∧ var = 0x04) ∨
    ((∃ h : n = 2, i = .pushi16 g (v.cast (by omega))) ∧ var = 0x05) ∨
    ((∃ h : n = 1, i = .pushi8 g (v.cast (by omega))) ∧ var = 0x06) →
    EncodedAs i ([0x02, var, g] ++ leBytes n v.toNat) ∧
    if (pushSlot s n).toNat + n ≤ s.params.memSize then
      ∃ t, exec i s = .next t ∧ Pushed s t n v ∧ SameRegsBut s t (fun j => j = s.params.spIdx)
    else TakesFault i (.memory (pushSlot s n)) s

/-- The push and pop round trip of R102: a value pushed from a view is popped into any view of the same width but a view of SP,
and SP is restored. -/
def Obligations.PushThenPopRestores : Prop :=
  ∀ (src dest : RegId) (r d : View) (s : State), s.regsSound = true → s.mem.wf = true →
    s.names src r → s.names dest d → r.width = d.width → d.reg ≠ s.params.spIdx →
    (pushSlot s r.width.bytes).toNat + r.width.bytes ≤ s.params.memSize →
    ∃ t u, exec (.push src) s = .next t ∧ exec (.pop dest) t = .next u ∧
      (u.readView d).toNat = (s.readView r).toNat ∧ u.reg s.params.spIdx = s.reg s.params.spIdx ∧
      SameRegsBut s u (fun j => j = d.reg) ∧ Quiet s u

/-! ### Control -/

/-- R109 to R115, the six conditional jumps: where the condition of R108 holds, `pc` becomes the target with PC's upper half
kept; else PC stays past the instruction; they raise no fault and change nothing else. -/
def Obligations.ConditionalJumps : Prop :=
  ∀ (g : Byte) (target : Addr) (s : State) (i : Instr) (var : Byte) (taken : Prop), s.regsSound = true →
    (i = .je g target ∧ var = 0x00 ∧ (taken ↔ s.flags.equals = true)) ∨
    (i = .jne g target ∧ var = 0x01 ∧ (taken ↔ s.flags.equals = false)) ∨
    (i = .jl g target ∧ var = 0x02 ∧ (taken ↔ s.flags.less = true)) ∨
    (i = .jb g target ∧ var = 0x03 ∧ (taken ↔ s.flags.more = true)) ∨
    (i = .jle g target ∧ var = 0x04 ∧ (taken ↔ s.flags.less = true ∨ s.flags.equals = true)) ∨
    (i = .jbe g target ∧ var = 0x05 ∧ (taken ↔ s.flags.more = false ∨ s.flags.equals = true)) →
    EncodedAs i ([0x03, var, g] ++ leBytes 8 target.toNat) ∧
    ∃ t, exec i s = .next t ∧ (taken → t.reg s.params.pcIdx = withAddr (s.reg s.params.pcIdx) target) ∧
      (¬ taken → t.reg s.params.pcIdx = s.reg s.params.pcIdx) ∧
      SameRegsBut s t (fun j => j = s.params.pcIdx) ∧ SameMem s t ∧ t.flags = s.flags ∧ Quiet s t

/-- R117, CALL: in bounds the post-operand PC goes to the slot below SP and `pc` becomes the target; out of bounds it is
MemoryFault with no push. -/
def Obligations.CallPushesReturnAddress : Prop :=
  ∀ (g : Byte) (target : Addr) (s : State), s.regsSound = true → s.mem.wf = true →
    EncodedAs (.call g target) ([0x03, 0x06, g] ++ leBytes 8 target.toNat) ∧
    if (pushSlot s 8).toNat + 8 ≤ s.params.memSize then
      ∃ t, exec (.call g target) s = .next t ∧ Pushed s t 8 s.pc ∧
        t.reg s.params.pcIdx = withAddr (s.reg s.params.pcIdx) target ∧
        SameRegsBut s t (fun j => j = s.params.spIdx ∨ j = s.params.pcIdx)
    else TakesFault (.call g target) (.memory (pushSlot s 8)) s

/-- R118, CALLR: as CALL, to the low 64 bits of the view's value, zero-extended where the view is narrower, read before the
push. -/
def Obligations.CallrCallsRegister : Prop :=
  ∀ (r : RegId) (s : State), s.regsSound = true → s.mem.wf = true →
    EncodedAs (.callr r) [0x03, 0x07, r] ∧ RejectsOperands (.callr r) s ∧
    ∀ v, s.names r v →
      if (pushSlot s 8).toNat + 8 ≤ s.params.memSize then
        ∃ t, exec (.callr r) s = .next t ∧ Pushed s t 8 s.pc ∧
          t.reg s.params.pcIdx = withAddr (s.reg s.params.pcIdx) (BitVec.ofNat 64 (s.readView v).toNat) ∧
          SameRegsBut s t (fun j => j = s.params.spIdx ∨ j = s.params.pcIdx)
      else TakesFault (.callr r) (.memory (pushSlot s 8)) s

/-- R119, RET: in bounds the eight bytes at SP become `pc`, PC's upper half kept, and SP moves up by 8; out of bounds it is
MemoryFault. -/
def Obligations.RetPopsPc : Prop :=
  ∀ (g : Byte) (s : State), s.regsSound = true →
    EncodedAs (.ret g) [0x03, 0x08, g] ∧
    if (popSlot s).toNat + 8 ≤ s.params.memSize then
      ∃ t, exec (.ret g) s = .next t ∧ (∀ k, k < 64 → t.pc.getLsbD k = memBit s (popSlot s).toNat k) ∧
        t.reg s.params.pcIdx = withAddr (s.reg s.params.pcIdx) t.pc ∧
        t.reg s.params.spIdx = withAddr (s.reg s.params.spIdx) (s.addr s.params.spIdx + 8) ∧
        SameRegsBut s t (fun j => j = s.params.spIdx ∨ j = s.params.pcIdx) ∧ SameMem s t ∧ t.flags = s.flags ∧ Quiet s t
    else TakesFault (.ret g) (.memory (popSlot s)) s

/-- The call and return round trip of R120: after a CALL, whatever ran between, RET resumes at the instruction after the CALL
and restores SP, if it starts with SP and LO as the CALL left them and the return address not overwritten. -/
def Obligations.CallThenRetReturns : Prop :=
  ∀ (g g' : Byte) (target : Addr) (s : State), s.regsSound = true → s.mem.wf = true →
    (pushSlot s 8).toNat + 8 ≤ s.params.memSize →
    ∃ t, exec (.call g target) s = .next t ∧
      ∀ u : State, u.regsSound = true → u.params = t.params →
        u.addr s.params.spIdx = t.addr s.params.spIdx → u.addr s.params.loIdx = t.addr s.params.loIdx →
        (∀ k, k < 8 → u.mem.read ((pushSlot s 8).toNat + k) = t.mem.read ((pushSlot s 8).toNat + k)) →
        ∃ v, exec (.ret g') u = .next v ∧ v.pc = s.pc ∧ v.addr s.params.spIdx = s.addr s.params.spIdx

/-- R122 and R124, INT: in bounds every register's 128 bits go to the frame below SP (PC as past the INT, SP as it has moved by
then), SP ends at the frame's base, and `pc` becomes the word at the vector entry as memory stands after the pushes;
nothing else changes. The frame is one of an address space that has room for it (816 bytes for 51 registers). -/
def Obligations.IntSavesRegisterFile : Prop :=
  ∀ (g id : Byte) (s : State), EncodedAs (.int g id) [0x03, 0x09, g, id] ∧
    (s.regsSound = true → s.mem.wf = true → 16 * s.params.nreg ≤ 2 ^ 64 →
    (∀ i, i < s.params.nreg → s.inBounds (frameSlot s i) 16) → s.inBounds (s.localEA (s.vectorAddr id)) 8 →
    ∃ t, exec (.int g id) s = .next t ∧
      (∀ i, i < s.params.nreg → MemHolds t (frameSlot s i).toNat 16 (frameValue s i)) ∧
      (∀ a, (∀ i, i < s.params.nreg → a < (frameSlot s i).toNat ∨ (frameSlot s i).toNat + 16 ≤ a) →
        t.mem.read a = s.mem.read a) ∧
      t.reg s.params.spIdx =
        withAddr (s.reg s.params.spIdx) (s.addr s.params.spIdx - BitVec.ofNat 64 (16 * s.params.nreg)) ∧
      (∀ k, k < 64 → t.pc.getLsbD k =
        memBit t (BitVec.ofNat 64 (id.toNat * s.params.vecEntry) + s.addr s.params.ipIdx + s.addr s.params.loIdx).toNat k) ∧
      t.reg s.params.pcIdx = withAddr (s.reg s.params.pcIdx) t.pc ∧
      SameRegsBut s t (fun j => j = s.params.spIdx ∨ j = s.params.pcIdx) ∧ t.flags = s.flags ∧ Quiet s t)

/-- R122: an INT one of whose accesses is out of bounds is MemoryFault at the first such access, in the order of the pushes and
then the vector read, and nothing of it remains. -/
def Obligations.IntFaultsWhole : Prop :=
  ∀ (g id : Byte) (s : State), s.regsSound = true →
    (∀ i, i < s.params.nreg → ¬ s.inBounds (frameSlot s i) 16 → (∀ j, j < i → s.inBounds (frameSlot s j) 16) →
      TakesFault (.int g id) (.memory (frameSlot s i)) s) ∧
    ((∀ i, i < s.params.nreg → s.inBounds (frameSlot s i) 16) → ¬ s.inBounds (s.localEA (s.vectorAddr id)) 8 →
      TakesFault (.int g id) (.memory (s.localEA (s.vectorAddr id))) s)

/-- R123, IRET: in bounds every register becomes the word popped for it, each pop under the SP and LO of its moment; SP ends above
the words popped after its own. Memory and flags are unchanged. -/
def Obligations.IretRestoresRegisterFile : Prop :=
  ∀ (g : Byte) (s : State), EncodedAs (.iret g) [0x03, 0x0A, g] ∧
    (s.regsSound = true → (∀ i, i < s.params.nreg → s.inBounds (iretSlot s i) 16) →
    ∃ t, exec (.iret g) s = .next t ∧
      (∀ i, i < s.params.nreg → i ≠ s.params.spIdx → t.reg i = wordAt s (iretSlot s i)) ∧
      t.reg s.params.spIdx =
        withAddr (wordAt s (iretSlot s s.params.spIdx)) (iretSp s + BitVec.ofNat 64 (16 * s.params.spIdx)) ∧
      SameMem s t ∧ t.flags = s.flags ∧ Quiet s t)

/-- R123: an IRET one of whose pops is out of bounds is MemoryFault at the first such pop, in the order from IP down, and nothing
of it remains. -/
def Obligations.IretFaultsWhole : Prop :=
  ∀ (g : Byte) (s : State) (i : Nat), s.regsSound = true → i < s.params.nreg →
    ¬ s.inBounds (iretSlot s i) 16 → (∀ j, i < j → j < s.params.nreg → s.inBounds (iretSlot s j) 16) →
    TakesFault (.iret g) (.memory (iretSlot s i)) s

/-- The interrupt round trip of R124: after an INT, whatever the handler did, IRET restores every register to its value before the
INT, so the run resumes after it, if it starts with SP and LO as the INT left them and the frame not overwritten. The
flags are not restored. -/
def Obligations.IntThenIretRestoresAll : Prop :=
  ∀ (g g' id : Byte) (s : State), s.regsSound = true → s.mem.wf = true → 16 * s.params.nreg ≤ 2 ^ 64 →
    (∀ i, i < s.params.nreg → s.inBounds (frameSlot s i) 16) → s.inBounds (s.localEA (s.vectorAddr id)) 8 →
    ∃ t, exec (.int g id) s = .next t ∧
      ∀ u : State, u.regsSound = true → u.params = t.params →
        u.addr s.params.spIdx = t.addr s.params.spIdx → u.addr s.params.loIdx = t.addr s.params.loIdx →
        (∀ i k, i < s.params.nreg → k < 16 →
          u.mem.read ((frameSlot s i).toNat + k) = t.mem.read ((frameSlot s i).toNat + k)) →
        ∃ v, exec (.iret g') u = .next v ∧ v.regs = s.regs ∧ v.flags = u.flags

/-! ### Halt -/

/-- R125, HLT: RUNNING cleared, everything else kept, whatever its variant byte. -/
def Obligations.HltClearsRunning : Prop :=
  ∀ (var g : Byte) (s : State),
    EncodedAs (.hlt var g) [0xFF, var, g] ∧
    ∃ t, exec (.hlt var g) s = .next t ∧ t.flags = { s.flags with running := false } ∧
      t.regs = s.regs ∧ SameMem s t ∧ Quiet s t

/-! ### The step -/

/-- R68, R69 and R73: where the header and the trailing field at the program counter are in bounds and decode to an instruction,
the step is that instruction executed with PC past it. -/
def Obligations.StepRunsDecodedInstruction : Prop :=
  ∀ (s : State) (hdr t : List Byte) (i : Instr), s.flags.running = true →
    s.fetchBytes (s.localEA s.pc) 3 = .ok hdr → s.fetchBytes (s.localEA (s.pc + 3)) t.length = .ok t →
    decode s.params.idivEnabled (hdr ++ t) = .ok (i, []) →
    step s = exec i (s.setPc (s.pc + BitVec.ofNat 64 (encode i).length))

/-- R67: a halted core's steps, however many, change nothing, report nothing and call no trace hook. -/
def Obligations.HaltedIsTerminal : Prop :=
  ∀ (s : State) (k : Nat), s.flags.running = false → core.run k s = .next s ∧ s.traceHook = none

/-- R72 and R131 for the faults of the fetch, in their order: a header out of bounds consumes 3 bytes; an unknown family or
variant consumes 3; a trailing field out of bounds consumes `3 + l`. -/
def Obligations.FetchFaults : Prop :=
  ∀ s : State, s.flags.running = true →
    if ¬ s.inBounds (s.localEA s.pc) 3 then
      step s = .next (fetchFaulted s 3 (.memory (s.localEA s.pc)) none)
    else match fetchedLength s with
      | none => step s = .next (fetchFaulted s 3 .unknownEncoding (some (fetchedByte s 0, fetchedByte s 1)))
      | some l => l ≠ 0 → ¬ s.inBounds (s.localEA (s.pc + 3)) l →
          step s = .next (fetchFaulted s (3 + l) (.memory (s.localEA (s.pc + 3))) (some (fetchedByte s 0, fetchedByte s 1)))

/-- R71 with R72: a step that reports a fault leaves every register, comparison flag and byte of memory as at its start, but for
`pc`, which is past the bytes consumed; RUNNING is cleared exactly where `FAULT_HALTS`; the report holds the PC the step
started at, and the family and variant bytes where the header was fetched. -/
def Obligations.FaultingStepUndoesEverything : Prop :=
  ∀ s t : State, s.regsSound = true → step s = .next t → t.reports ≠ s.reports →
    t = { s.setPc (s.pc + BitVec.ofNat 64 (consumedBytes s)) with
          flags := { s.flags with running := !s.params.faultHalts }, reports := t.reports } ∧
    ∃ r, t.reports = r :: s.reports ∧ r.startPc = s.pc ∧
      r.header = if s.inBounds (s.localEA s.pc) 3 then some (fetchedByte s 0, fetchedByte s 1) else none

/-- R71, R74 and R128: every step, from every state, answers a next state. -/
def Obligations.StepAlwaysAnswersNext : Prop := ∀ s : State, ∃ t, step s = .next t

/-- R131 and R6: a step reports at most one fault and erases none, and no step changes a parameter. -/
def Obligations.StepReportsAtMostOneFault : Prop :=
  ∀ s t : State, step s = .next t → t.params = s.params ∧ (t.reports = s.reports ∨ ∃ r, t.reports = r :: s.reports)

/-- R126: an instruction in execution reports an IllegalInstructionFault exactly where a used register id is invalid or its
register operands differ in width. -/
def Obligations.IllegalInstructionExactly : Prop :=
  ∀ (i : Instr) (s t : State), exec i s = .next t →
    ((∃ r, t.reports = r :: s.reports ∧ r.fault.code = 1) ↔ ¬ (i.idsValid s.params.nreg = true ∧ i.widthsAgree = true))

/-- R23: in execution only family 0x01 writes a comparison flag, and only HLT, or a fault where `FAULT_HALTS`, clears RUNNING;
nothing sets it. -/
def Obligations.FlagWriters : Prop :=
  ∀ (i : Instr) (s t : State), exec i s = .next t →
    (i.fam ≠ 0x01 ∨ t.reports ≠ s.reports →
      t.flags.equals = s.flags.equals ∧ t.flags.less = s.flags.less ∧ t.flags.more = s.flags.more) ∧
    (t.flags.running = true → s.flags.running = true) ∧
    (s.flags.running = true → t.flags.running = false →
      i.fam = 0xFF ∨ (s.params.faultHalts = true ∧ t.reports ≠ s.reports))

/-- R30: the fault reports are outputs: steps from states that differ in them at most lead to states that differ in them at
most. -/
def Obligations.ReportsInfluenceNothing : Prop :=
  ∀ s t s' t' : State, s.SameArch t → step s = .next s' → step t = .next t' → s'.SameArch t'

/-- Every step keeps the invariant: a Register File of `NREG` registers (R8), memory in canonical form and inside the
Memory Image (R26, R35), and at most one comparison flag set (R24). -/
def Obligations.StepKeepsInvariant : Prop := ∀ s t : State, s.Inv → step s = .next t → t.Inv

/-- The machine at reset has the invariant. -/
def Obligations.ResetHasInvariant : Prop := State.reset.Inv

/-- A run is free of faults exactly where its parts are: no later step hides a fault (R76, R130). -/
def Obligations.FaultFreeRunsSplit : Prop :=
  ∀ (j k : Nat) (s : State),
    FaultFreeRun (j + k) s ↔ FaultFreeRun j s ∧ ∀ t, core.run j s = .next t → FaultFreeRun k t

/-! ### Start and several cores -/

/-- R142 and R143: the loader's contract, for every image and parameters, NREG at least 5 (decision D3): memory zero
but for the image, every register zero but PC = SP = `LOAD_OFFSET`, RUNNING alone set; no start where the image does
not fit. LO, IP and the comparison flags zero are the spec's decision D20. -/
def Obligations.InitialisationContract : Prop :=
  ∀ (p : Params) (image : List Byte), 5 ≤ p.nreg →
    (State.init p image = none ↔ p.memSize < p.loadOffset.toNat + image.length) ∧
    ∀ s, State.init p image = some s →
      (∀ a, s.mem.read a =
        if p.loadOffset.toNat ≤ a ∧ a < p.loadOffset.toNat + image.length then image.getD (a - p.loadOffset.toNat) 0
        else 0) ∧
      (∀ j, s.reg j = if j = p.pcIdx ∨ j = p.spIdx then p.loadOffset.setWidth 128 else 0) ∧
      s.flags = { running := true, equals := false, less := false, more := false } ∧ s.params = p ∧ s.reports = [] ∧
      s.Inv

/-- R27, R43 and R139: a step of core `c` answers a next state, is that core's own step on the shared memory, and leaves every
other core's registers and flags as they were. -/
def Obligations.CoresShareOnlyMemory : Prop :=
  ∀ (m : Multi) (c : Nat) (x : CoreCtx), m.cores[c]? = some x →
    ∃ (s : State) (m' : Multi), step (m.view x) = .next s ∧ m.stepCore c = .next m' ∧
      m'.cores[c]? = some s.ctx ∧ m'.mem = s.mem ∧ m'.params = m.params ∧
      ∀ c', c' ≠ c → m'.cores[c']? = m.cores[c']?

/-- R139 and D25: a launch starts one core per entry, with the Register File given for it or, by default, the one of R29
(zero but PC = SP = `LOAD_OFFSET`), on the loaded memory, with the flags of R29 (RUNNING alone set); every core has the
invariant. There is no launch where the image does not fit (R143, D23). The clause that there is none with a file
that is not of `NREG` registers is the model's choice, DESIGN CHOICE of assumption log 11: no rule speaks of it. -/
def Obligations.LaunchStartsEveryCore : Prop :=
  ∀ (p : Params) (image : List Byte) (files : List (Option (List Word))), 5 ≤ p.nreg →
    (Multi.launch p image files = none ↔
      p.memSize < p.loadOffset.toNat + image.length ∨ ∃ f, some f ∈ files ∧ f.length ≠ p.nreg) ∧
    ∀ m, Multi.launch p image files = some m →
      m.cores.length = files.length ∧ m.params = p ∧ (∃ s, State.init p image = some s ∧ m.mem = s.mem) ∧ m.Inv ∧
      ∀ (c : Nat) (x : CoreCtx), m.cores[c]? = some x →
        x.flags = { running := true, equals := false, less := false, more := false } ∧ x.reports = [] ∧
        (∀ f : List Word, files[c]? = some (some f) → x.regs = f) ∧
        (files[c]? = some none → ∀ j,
          (m.view x).reg j = if j = p.pcIdx ∨ j = p.spIdx then p.loadOffset.setWidth 128 else 0)

/-- Any schedule (R48, R49): a run of several cores with the invariant answers a next state, and every core has it there.
That a schedule entry which names no core does nothing is the model's choice, DESIGN CHOICE of assumption log 11. -/
def Obligations.SchedulesKeepInvariant : Prop :=
  ∀ (m : Multi) (schedule : List Nat), m.Inv → ∃ m', m.run schedule = .next m' ∧ m'.params = m.params ∧ m'.Inv
end

