-- ==== Sys2Proof/Laws/Bytes.lean ====
section
/-! SUPPORT. Laws of the little-endian byte helpers and of replacing the low bits of a word. -/

namespace Sys2Proof.Laws

open Machine

@[simp] theorem leBytes_length (n v : Nat) : (leBytes n v).length = n := by
  induction n generalizing v with
  | zero => rfl
  | succ n ih => simp [leBytes, ih]

theorem leNat_lt (bs : List Byte) : leNat bs < 256 ^ bs.length := by
  induction bs with
  | nil => simp [leNat]
  | cons b bs ih =>
    simp only [leNat, List.length_cons, Nat.pow_succ]
    have := b.isLt
    omega

theorem leNat_leBytes (n v : Nat) : leNat (leBytes n v) = v % 256 ^ n := by
  induction n generalizing v with
  | zero => simp [leBytes, leNat, Nat.mod_one]
  | succ n ih =>
    rw [leBytes, leNat, ih, Nat.pow_succ', Nat.mod_mul, BitVec.toNat_ofNat]

theorem leBytes_leNat (bs : List Byte) : leBytes bs.length (leNat bs) = bs := by
  induction bs with
  | nil => rfl
  | cons b bs ih =>
    have h := b.isLt
    have h1 : (b.toNat + 256 * leNat bs) / 256 = leNat bs := by omega
    simp only [List.length_cons, leBytes, leNat, h1, ih, List.cons.injEq, and_true]
    apply BitVec.eq_of_toNat_eq
    simp only [BitVec.toNat_ofNat]
    omega

/-- Byte `k` of the little-endian layout of `v` is bits `8k+7..8k` of `v` (R37). -/
theorem leBytes_getElem (n v k : Nat) (h : k < (leBytes n v).length) :
    (leBytes n v)[k] = BitVec.ofNat 8 (v / 256 ^ k) := by
  induction n generalizing v k with
  | zero => simp at h
  | succ n ih =>
    cases k with
    | zero => simp [leBytes]
    | succ k => simp [leBytes, ih, Nat.pow_succ', Nat.div_div_eq_div_mul]

/-- Bit `k` of the number a byte sequence stands for is bit `k mod 8` of byte `k div 8` (R36). -/
theorem leNat_testBit (bs : List Byte) (k : Nat) : (leNat bs).testBit k = (byteAt bs (k / 8)).getLsbD (k % 8) := by
  induction bs generalizing k with
  | nil => simp [leNat, byteAt]
  | cons b bs ih =>
    have e : leNat (b :: bs) = 2 ^ 8 * leNat bs + b.toNat := by simp [leNat]; omega
    rw [e, Nat.testBit_two_pow_mul_add _ b.isLt]
    by_cases h : k < 8
    · have h1 : k / 8 = 0 := by omega
      have h2 : k % 8 = k := by omega
      simp [h, h1, h2, byteAt, BitVec.getLsbD]
    · have h1 : k / 8 = (k - 8) / 8 + 1 := by omega
      have h2 : k % 8 = (k - 8) % 8 := by omega
      rw [if_neg h, ih, h1, h2]
      simp [byteAt]

/-- Replacing the low `n` bits: bit `k` comes from the new value below `n` and from the old word above (R13). -/
theorem spliceLow_getLsbD {n : Nat} (old : Word) (v : BitVec n) (k : Nat) :
    (spliceLow old v).getLsbD k = if k < n then (decide (k < 128) && v.getLsbD k) else old.getLsbD k := by
  unfold spliceLow
  by_cases h : k < n
  · by_cases h2 : k < 128 <;> simp [h, h2]
  · have hk : n + (k - n) = k := by omega
    by_cases h2 : k < 128
    · simp [h, h2, hk]; intro hv; exact absurd (BitVec.lt_of_getLsbD hv) h
    · simp [h, h2, BitVec.getLsbD_of_ge old k (by omega)]

theorem Width.bits_le (w : Width) : w.bits ≤ 128 := by cases w <;> decide

theorem Width.bytes_pos (w : Width) : 0 < w.bytes := by cases w <;> decide

end Sys2Proof.Laws
end

