-- ==== Sys2Proof/Laws/Memory.lean ====
section
/-! SUPPORT. Laws of the memory: reading back a write, leaving every other address alone, keeping the canonical form. -/

namespace Sys2Proof.Laws

open Machine

/-! ### One byte -/

theorem lookup_consCell (a b : Nat) (v : Byte) (rest : List Host.Cell) (h : lookupCell rest a = unlistedByte) :
    lookupCell (consCell a v rest) b = if b = a then v else lookupCell rest b := by
  unfold consCell
  by_cases hv : v = unlistedByte
  · rw [if_pos hv]
    by_cases hb : b = a
    · rw [if_pos hb, hb, h, hv]
    · rw [if_neg hb]
  · rw [if_neg hv]; rfl

theorem cellsWf_cons {k : Nat} {v : Byte} {rest : List Host.Cell} :
    cellsWf ((k, v) :: rest) = true ↔ v ≠ unlistedByte ∧ (∀ c ∈ rest, k < c.1) ∧ cellsWf rest = true := by
  simp [cellsWf, and_assoc]

theorem lookup_below {cells : List Host.Cell} {a : Nat} (h : ∀ c ∈ cells, a < c.1) : lookupCell cells a = unlistedByte := by
  induction cells with
  | nil => rfl
  | cons c rest ih =>
    obtain ⟨k, v⟩ := c
    have : a < k := h (k, v) (by simp)
    have h' : a ≠ k := by omega
    simp only [lookupCell, h', if_false]
    exact ih fun c hc => h c (by simp [hc])

theorem lookup_insertCell {cells : List Host.Cell} (hw : cellsWf cells = true) (a b : Nat) (v : Byte) :
    lookupCell (insertCell cells a v) b = if b = a then v else lookupCell cells b := by
  induction cells with
  | nil => exact lookup_consCell a b v [] rfl
  | cons c rest ih =>
    obtain ⟨k, w⟩ := c
    obtain ⟨-, hlt, hrest⟩ := cellsWf_cons.1 hw
    simp only [insertCell]
    split
    · rename_i hak
      apply lookup_consCell
      apply lookup_below
      intro c hc
      rcases List.mem_cons.1 hc with rfl | hc
      · exact hak
      · have := hlt c hc; omega
    · split
      · rename_i _ hak
        subst hak
        rw [lookup_consCell a b v rest (lookup_below hlt)]
        simp only [lookupCell]
        split <;> simp_all
      · rename_i h1 h2
        simp only [lookupCell, ih hrest]
        by_cases hbk : b = k
        · have : b ≠ a := by omega
          simp [hbk, Ne.symm h2]
        · simp [hbk]

theorem mem_insertCell {cells : List Host.Cell} {a : Nat} {v : Byte} {c : Host.Cell}
    (h : c ∈ insertCell cells a v) : c = (a, v) ∨ c ∈ cells := by
  induction cells with
  | nil => unfold insertCell consCell at h; split at h <;> simp_all
  | cons x rest ih =>
    obtain ⟨k, w⟩ := x
    simp only [insertCell, consCell] at h
    split at h
    · split at h <;> simp_all
    · split at h
      · split at h
        · exact .inr (by simp [h])
        · rcases List.mem_cons.1 h with h | h <;> simp [h]
      · rcases List.mem_cons.1 h with h | h
        · simp [h]
        · rcases ih h with h | h <;> simp [h]

theorem cellsWf_consCell {a : Nat} {v : Byte} {rest : List Host.Cell} (hw : cellsWf rest = true)
    (h : ∀ c ∈ rest, a < c.1) : cellsWf (consCell a v rest) = true := by
  unfold consCell
  split
  · exact hw
  · exact cellsWf_cons.2 ⟨by assumption, h, hw⟩

theorem cellsWf_insertCell {cells : List Host.Cell} (hw : cellsWf cells = true) (a : Nat) (v : Byte) :
    cellsWf (insertCell cells a v) = true := by
  induction cells with
  | nil => exact cellsWf_consCell rfl (by simp)
  | cons x rest ih =>
    obtain ⟨k, w⟩ := x
    obtain ⟨hne, hlt, hrest⟩ := cellsWf_cons.1 hw
    simp only [insertCell]
    split
    · apply cellsWf_consCell hw
      intro c hc
      rcases List.mem_cons.1 hc with rfl | hc
      · assumption
      · have := hlt c hc; omega
    · split
      · rename_i _ hak
        exact cellsWf_consCell hrest (hak ▸ hlt)
      · refine cellsWf_cons.2 ⟨hne, fun c hc => ?_, ih hrest⟩
        rcases mem_insertCell hc with rfl | hc
        · show k < a; omega
        · exact hlt c hc

/-- A byte written is read back, and every other byte reads as before. -/
theorem read_write {m : Memory} (hw : m.wf = true) (a b : Nat) (v : Byte) :
    (m.write a v).read b = if b = a then v else m.read b := lookup_insertCell hw a b v

/-- Writing a byte keeps the canonical form. -/
theorem write_wf {m : Memory} (hw : m.wf = true) (a : Nat) (v : Byte) : (m.write a v).wf = true :=
  cellsWf_insertCell hw a v

/-! ### Byte sequences -/

@[simp] theorem readBytes_length (m : Memory) (a n : Nat) : (m.readBytes a n).length = n := by
  induction n generalizing a with
  | zero => rfl
  | succ n ih => simp [Memory.readBytes, ih]

theorem readBytes_getElem (m : Memory) (a n k : Nat) (h : k < (m.readBytes a n).length) :
    (m.readBytes a n)[k] = m.read (a + k) := by
  induction n generalizing a k with
  | zero => simp at h
  | succ n ih =>
    cases k with
    | zero => simp [Memory.readBytes]
    | succ k => simp [Memory.readBytes, ih, Nat.add_assoc, Nat.add_comm 1]

theorem readBytes_byteAt (m : Memory) (a n k : Nat) (h : k < n) : byteAt (m.readBytes a n) k = m.read (a + k) := by
  unfold byteAt
  rw [List.getD_eq_getElem _ _ (by simpa using h), readBytes_getElem]

/-- Writing a byte sequence keeps the canonical form. -/
theorem writeBytes_wf {m : Memory} (hw : m.wf = true) (a : Nat) (bs : List Byte) : (m.writeBytes a bs).wf = true := by
  induction bs generalizing m a with
  | nil => exact hw
  | cons b bs ih => exact ih (write_wf hw a b) (a + 1)

/-- A byte sequence written is read back at its addresses, and every other byte reads as before. -/
theorem read_writeBytes {m : Memory} (hw : m.wf = true) (a b : Nat) (bs : List Byte) :
    (m.writeBytes a bs).read b = if a ≤ b ∧ b < a + bs.length then byteAt bs (b - a) else m.read b := by
  induction bs generalizing m a with
  | nil => simp only [Memory.writeBytes, List.length_nil]; rw [if_neg (by omega)]
  | cons x bs ih =>
    rw [Memory.writeBytes, ih (write_wf hw a x), read_write hw]
    by_cases hab : b = a
    · subst hab
      simp [byteAt]
    · by_cases hin : a + 1 ≤ b ∧ b < a + 1 + bs.length
      · obtain ⟨k, hk⟩ : ∃ k, b - a = k + 1 := ⟨b - a - 1, by omega⟩
        have h1 : b - (a + 1) = k := by omega
        rw [if_pos hin, if_pos ⟨by omega, by simp only [List.length_cons]; omega⟩, hk, h1]
        simp [byteAt]
      · rw [if_neg hin, if_neg hab, if_neg (by simp only [List.length_cons]; omega)]

/-- The addresses a byte sequence is written to are the only ones a write can add to the cells. -/
theorem mem_writeBytes {m : Memory} {a : Nat} {bs : List Byte} {c : Host.Cell}
    (h : c ∈ (m.writeBytes a bs).cells) : c ∈ m.cells ∨ (a ≤ c.1 ∧ c.1 < a + bs.length) := by
  induction bs generalizing m a with
  | nil => exact .inl h
  | cons x bs ih =>
    rcases ih h with h | h
    · rcases mem_insertCell h with rfl | h
      · right; simp
      · exact .inl h
    · right; simp only [List.length_cons]; omega

/-- Memory at reset is in canonical form. -/
theorem reset_mem_wf : State.reset.mem.wf = true := rfl

end Sys2Proof.Laws
end

