-- ==== Sys2Proof/Laws/State.lean ====
section
/-! SUPPORT. One lemma per field per update of the state, and what each register operation reads back. -/

namespace Sys2Proof.Laws

open Machine

variable (s : State)

/-! ### A register written, every other field kept -/

@[simp] theorem setReg_flags (i : Nat) (v : Word) : (s.setReg i v).flags = s.flags := rfl
@[simp] theorem setReg_mem (i : Nat) (v : Word) : (s.setReg i v).mem = s.mem := rfl
@[simp] theorem setReg_params (i : Nat) (v : Word) : (s.setReg i v).params = s.params := rfl
@[simp] theorem setReg_reports (i : Nat) (v : Word) : (s.setReg i v).reports = s.reports := rfl

@[simp] theorem writeReg_flags (i : Nat) (w : Width) (v : BitVec w.bits) : (s.writeReg i w v).flags = s.flags := rfl
@[simp] theorem writeReg_mem (i : Nat) (w : Width) (v : BitVec w.bits) : (s.writeReg i w v).mem = s.mem := rfl
@[simp] theorem writeReg_params (i : Nat) (w : Width) (v : BitVec w.bits) :
    (s.writeReg i w v).params = s.params := rfl
@[simp] theorem writeReg_reports (i : Nat) (w : Width) (v : BitVec w.bits) :
    (s.writeReg i w v).reports = s.reports := rfl

@[simp] theorem writeView_flags (d : View) (v : BitVec d.width.bits) : (s.writeView d v).flags = s.flags := rfl
@[simp] theorem writeView_mem (d : View) (v : BitVec d.width.bits) : (s.writeView d v).mem = s.mem := rfl
@[simp] theorem writeView_params (d : View) (v : BitVec d.width.bits) : (s.writeView d v).params = s.params := rfl
@[simp] theorem writeView_reports (d : View) (v : BitVec d.width.bits) : (s.writeView d v).reports = s.reports := rfl

@[simp] theorem setAddr_flags (i : Nat) (a : Addr) : (s.setAddr i a).flags = s.flags := rfl
@[simp] theorem setAddr_mem (i : Nat) (a : Addr) : (s.setAddr i a).mem = s.mem := rfl
@[simp] theorem setAddr_params (i : Nat) (a : Addr) : (s.setAddr i a).params = s.params := rfl
@[simp] theorem setAddr_reports (i : Nat) (a : Addr) : (s.setAddr i a).reports = s.reports := rfl

@[simp] theorem setPc_flags (a : Addr) : (s.setPc a).flags = s.flags := rfl
@[simp] theorem setPc_mem (a : Addr) : (s.setPc a).mem = s.mem := rfl
@[simp] theorem setPc_params (a : Addr) : (s.setPc a).params = s.params := rfl
@[simp] theorem setPc_reports (a : Addr) : (s.setPc a).reports = s.reports := rfl

/-! ### The flags written, every other field kept -/

@[simp] theorem compare_reg {n : Nat} (a b : BitVec n) (j : Nat) : (s.compare a b).reg j = s.reg j := rfl
@[simp] theorem compare_regs {n : Nat} (a b : BitVec n) : (s.compare a b).regs = s.regs := rfl
@[simp] theorem compare_mem {n : Nat} (a b : BitVec n) : (s.compare a b).mem = s.mem := rfl
@[simp] theorem compare_params {n : Nat} (a b : BitVec n) : (s.compare a b).params = s.params := rfl
@[simp] theorem compare_reports {n : Nat} (a b : BitVec n) : (s.compare a b).reports = s.reports := rfl
@[simp] theorem compare_flags {n : Nat} (a b : BitVec n) : (s.compare a b).flags = compareFlags a b s.flags := rfl

/-! ### The memory, the flags or the reports replaced as fields -/

@[simp] theorem reg_mem (m : Memory) (j : Nat) : State.reg { s with mem := m } j = s.reg j := rfl
@[simp] theorem reg_flags (f : Flags) (j : Nat) : State.reg { s with flags := f } j = s.reg j := rfl
@[simp] theorem addr_mem (m : Memory) (j : Nat) : State.addr { s with mem := m } j = s.addr j := rfl
@[simp] theorem addr_flags (f : Flags) (j : Nat) : State.addr { s with flags := f } j = s.addr j := rfl
@[simp] theorem localEA_mem (m : Memory) (a : Addr) : State.localEA { s with mem := m } a = s.localEA a := rfl

/-! ### A fault taken -/

variable (f : Fault) (pc : Addr) (h : Option (Byte × Byte))

@[simp] theorem takeFault_regs : (takeFault f pc h s).regs = s.regs := rfl
@[simp] theorem takeFault_reg (j : Nat) : (takeFault f pc h s).reg j = s.reg j := rfl
@[simp] theorem takeFault_mem : (takeFault f pc h s).mem = s.mem := rfl
@[simp] theorem takeFault_params : (takeFault f pc h s).params = s.params := rfl
@[simp] theorem takeFault_reports :
    (takeFault f pc h s).reports = { fault := f, startPc := pc, header := h } :: s.reports := rfl
@[simp] theorem takeFault_flags :
    (takeFault f pc h s).flags = { s.flags with running := s.flags.running && !s.params.faultHalts } := rfl

/-! ### The number of registers, which no operation changes -/

@[simp] theorem setReg_length (i : Nat) (v : Word) : (s.setReg i v).regs.length = s.regs.length :=
  List.length_set
@[simp] theorem writeReg_length (i : Nat) (w : Width) (v : BitVec w.bits) :
    (s.writeReg i w v).regs.length = s.regs.length := setReg_length ..
@[simp] theorem writeView_length (d : View) (v : BitVec d.width.bits) :
    (s.writeView d v).regs.length = s.regs.length := setReg_length ..
@[simp] theorem setAddr_length (i : Nat) (a : Addr) : (s.setAddr i a).regs.length = s.regs.length := setReg_length ..
@[simp] theorem setPc_length (a : Addr) : (s.setPc a).regs.length = s.regs.length := setReg_length ..

/-! ### What a register operation reads back -/

/-- A register past the Register File reads as 0. -/
theorem reg_of_ge {i : Nat} (h : s.regs.length ≤ i) : s.reg i = 0 := List.getD_eq_default _ _ h

/-- Writing a register of the Register File changes that register and no other; writing one past it changes nothing. -/
theorem setReg_reg (i j : Nat) (v : Word) :
    (s.setReg i v).reg j = if j = i ∧ i < s.regs.length then v else s.reg j := by
  unfold State.setReg State.reg
  rw [List.getD_eq_getElem?_getD, List.getD_eq_getElem?_getD, List.getElem?_set]
  by_cases h : i = j
  · subst h
    by_cases hl : i < s.regs.length <;> simp [hl]
  · simp [h, Ne.symm h]

/-- Writing a register leaves every other register as it was. -/
theorem setReg_reg_ne {i j : Nat} (v : Word) (h : j ≠ i) : (s.setReg i v).reg j = s.reg j := by
  rw [setReg_reg, if_neg fun hc => h hc.1]

/-- Register files of one size agree where all registers do. -/
theorem regs_ext {s t : State} (hl : s.regs.length = t.regs.length) (h : ∀ j, s.reg j = t.reg j) : s.regs = t.regs := by
  apply List.ext_getElem hl
  intro i h1 h2
  have := h i
  unfold State.reg at this
  rwa [List.getD_eq_getElem _ _ h1, List.getD_eq_getElem _ _ h2] at this

/-- States agree where all registers and all other fields do. -/
theorem state_ext {s t : State} (hl : s.regs.length = t.regs.length) (hr : ∀ j, s.reg j = t.reg j)
    (hf : s.flags = t.flags) (hm : s.mem = t.mem) (hp : s.params = t.params) (hq : s.reports = t.reports) : s = t := by
  have := regs_ext hl hr
  cases s; cases t
  simp_all

/-- A register with its address view replaced: bits 63:0 are the address, bits 127:64 are kept (R18). -/
theorem spliceLow_addr (w : Word) (a : Addr) : spliceLow w a = w.extractLsb' 64 64 ++ a := by
  apply BitVec.eq_of_getLsbD_eq
  intro k hk
  rw [spliceLow_getLsbD, BitVec.getLsbD_append]
  by_cases h : k < 64
  · simp [h, hk]
  · have h1 : k - 64 < 64 := by omega
    have h2 : 64 + (k - 64) = k := by omega
    simp [h, h1, h2]

/-- Setting a register's address view changes that register's bits 63:0 and nothing else (R18). -/
theorem setAddr_reg {i : Nat} (j : Nat) (a : Addr) (hi : i < s.regs.length) :
    (s.setAddr i a).reg j = if j = i then (s.reg i).extractLsb' 64 64 ++ a else s.reg j := by
  unfold State.setAddr; rw [setReg_reg, spliceLow_addr]; simp [hi]

/-- Setting a register's address view leaves every other register as it was. -/
theorem setAddr_reg_ne {i j : Nat} (a : Addr) (h : j ≠ i) : (s.setAddr i a).reg j = s.reg j := setReg_reg_ne s _ h

/-- The address view of `hi ++ a` is `a`. -/
@[simp] theorem setWidth_append (h a : BitVec 64) : (h ++ a).setWidth 64 = a := by
  apply BitVec.eq_of_getLsbD_eq
  intro k hk
  rw [BitVec.getLsbD_setWidth, BitVec.getLsbD_append]
  simp [hk]

/-- The address view that was set is read back; other registers' views are kept. -/
theorem setAddr_addr {i : Nat} (j : Nat) (a : Addr) (hi : i < s.regs.length) :
    (s.setAddr i a).addr j = if j = i then a else s.addr j := by
  unfold State.addr; rw [setAddr_reg s j a hi]; split
  · exact setWidth_append ..
  · rfl

/-- Other registers' address views are kept. -/
theorem setAddr_addr_ne {i j : Nat} (a : Addr) (h : j ≠ i) : (s.setAddr i a).addr j = s.addr j := by
  unfold State.addr; rw [setAddr_reg_ne s a h]

/-- Local addresses depend on LO alone. -/
theorem setAddr_localEA_ne {i : Nat} (a b : Addr) (h : s.params.loIdx ≠ i) :
    (s.setAddr i a).localEA b = s.localEA b := by
  unfold State.localEA; rw [setAddr_params, setAddr_addr_ne s a h]

/-- Bits of a register after a write through a view (R13): those of the value below the view's width, those of the
register above it; other registers keep theirs. -/
theorem writeView_getLsbD {d : View} (v : BitVec d.width.bits) (j : Nat) (k : Nat) (hd : d.reg < s.regs.length) :
    ((s.writeView d v).reg j).getLsbD k =
      if j = d.reg ∧ k < d.width.bits then v.getLsbD k else (s.reg j).getLsbD k := by
  unfold State.writeView State.writeReg
  rw [setReg_reg]
  by_cases hj : j = d.reg
  · subst hj
    have := Width.bits_le d.width
    simp only [hd, and_self, if_true, true_and, spliceLow_getLsbD]
    split
    · rename_i h
      have : k < 128 := by omega
      simp [this]
    · rfl
  · simp [hj]

/-- A write through a view leaves every other register as it was (R13). -/
theorem writeView_reg_ne (d : View) (v : BitVec d.width.bits) {j : Nat} (h : j ≠ d.reg) :
    (s.writeView d v).reg j = s.reg j := setReg_reg_ne s _ h

/-- What was written through a view is read back through it (R12, R13). -/
theorem readView_writeView {d : View} (v : BitVec d.width.bits) (hd : d.reg < s.regs.length) :
    (s.writeView d v).readView d = v := by
  apply BitVec.eq_of_getLsbD_eq
  intro k hk
  unfold State.readView State.readReg
  rw [BitVec.getLsbD_setWidth, writeView_getLsbD s v d.reg k hd]
  simp [hk]

end Sys2Proof.Laws
end

