-- ==== Sys2Proof/Laws/Ops.lean ====
section
/-! SUPPORT. One lemma per shared operation that says everything it can do: cite these instead of unfolding. -/

namespace Sys2Proof.Laws

open Machine

variable {s t : State} {ea : Addr} {n : Nat} {f : Fault}

/-! ### Memory accesses -/

/-- `MemRead` answers exactly in bounds, with the little-endian value (R36). -/
theorem memRead_eq_ok {v : BitVec (8 * n)} :
    s.memRead ea n = .ok v ↔ s.inBounds ea n ∧ v = BitVec.ofNat (8 * n) (leNat (s.mem.readBytes ea.toNat n)) := by
  unfold State.memRead; split <;> simp_all [eq_comm]

/-- `MemRead` faults exactly out of bounds, with the effective address (R35). -/
theorem memRead_eq_error : s.memRead ea n = .error f ↔ ¬ s.inBounds ea n ∧ f = .memory ea := by
  unfold State.memRead; split <;> simp_all [eq_comm]

/-- Bit `k` of the value read is bit `k mod 8` of byte `ea + k div 8`. -/
theorem readValue_getLsbD (m : Memory) (a n k : Nat) (h : k < 8 * n) :
    (BitVec.ofNat (8 * n) (leNat (m.readBytes a n))).getLsbD k = (m.read (a + k / 8)).getLsbD (k % 8) := by
  rw [BitVec.getLsbD_ofNat, leNat_testBit, readBytes_byteAt _ _ _ _ (by omega)]
  simp [h]

/-- `MemWrite` answers exactly in bounds, with the bytes of the value written and nothing else changed (R37). -/
theorem memWrite_eq_ok {v : BitVec (8 * n)} :
    s.memWrite ea n v = .ok t ↔
      s.inBounds ea n ∧ t = { s with mem := s.mem.writeBytes ea.toNat (leBytes n v.toNat) } := by
  unfold State.memWrite; split <;> simp_all [eq_comm]

/-- `MemWrite` faults exactly out of bounds, with the effective address (R35). -/
theorem memWrite_eq_error {v : BitVec (8 * n)} :
    s.memWrite ea n v = .error f ↔ ¬ s.inBounds ea n ∧ f = .memory ea := by
  unfold State.memWrite; split <;> simp_all [eq_comm]

/-- Byte `k` of the layout of `v` is bits `8k+7..8k` of `v` (R37). -/
theorem leBytes_byteAt {n k : Nat} (v : BitVec (8 * n)) (h : k < n) :
    byteAt (leBytes n v.toNat) k = v.extractLsb' (8 * k) 8 := by
  unfold byteAt
  rw [List.getD_eq_getElem _ _ (by simpa using h), leBytes_getElem]
  apply BitVec.eq_of_toNat_eq
  simp [BitVec.extractLsb'_toNat, Nat.shiftRight_eq_div_pow, Nat.pow_mul]

/-- What a write of `v` leaves at each address: its bytes in the `n` written, every other byte as before. -/
theorem read_writeValue {m : Memory} (hw : m.wf = true) (a b : Nat) (v : BitVec (8 * n)) :
    (m.writeBytes a (leBytes n v.toNat)).read b =
      if a ≤ b ∧ b < a + n then v.extractLsb' (8 * (b - a)) 8 else m.read b := by
  rw [read_writeBytes hw, leBytes_length]
  split
  · rename_i h; exact leBytes_byteAt v (by omega)
  · rfl

/-- `FetchBytes` answers where the access is empty or in bounds (R38). -/
theorem fetchBytes_eq_ok {bs : List Byte} :
    s.fetchBytes ea n = .ok bs ↔ (n = 0 ∨ s.inBounds ea n) ∧ bs = s.mem.readBytes ea.toNat n := by
  unfold State.fetchBytes; split <;> simp_all [eq_comm]

/-- `FetchBytes` faults on a nonempty access out of bounds, with the effective address (R38). -/
theorem fetchBytes_eq_error :
    s.fetchBytes ea n = .error f ↔ ¬ (n = 0 ∨ s.inBounds ea n) ∧ f = .memory ea := by
  unfold State.fetchBytes; split <;> simp_all [eq_comm]

/-! ### Stack -/

/-- A push writes the slot below SP and moves SP there, exactly where the slot is in bounds (R98). -/
theorem push_eq_ok {v : BitVec (8 * n)} :
    s.push n v = .ok t ↔
      s.inBounds (s.localEA (s.addr s.params.spIdx - BitVec.ofNat 64 n)) n ∧
      t = State.setAddr
        { s with mem := s.mem.writeBytes (s.localEA (s.addr s.params.spIdx - BitVec.ofNat 64 n)).toNat (leBytes n v.toNat) }
        s.params.spIdx (s.addr s.params.spIdx - BitVec.ofNat 64 n) := by
  unfold State.push
  dsimp only
  cases h : s.memWrite (s.localEA (s.addr s.params.spIdx - BitVec.ofNat 64 n)) n v with
  | error e =>
    have := (memWrite_eq_error.1 h).1
    simp only [bind, Except.bind, reduceCtorEq, false_iff]; exact fun h => this h.1
  | ok u =>
    obtain ⟨hb, rfl⟩ := memWrite_eq_ok.1 h
    simp only [bind, Except.bind, pure, Except.pure, Except.ok.injEq, hb, true_and]
    exact eq_comm

/-- A push faults exactly where its slot is out of bounds, and then nothing is written (R98). -/
theorem push_eq_error {v : BitVec (8 * n)} :
    s.push n v = .error f ↔
      ¬ s.inBounds (s.localEA (s.addr s.params.spIdx - BitVec.ofNat 64 n)) n ∧
      f = .memory (s.localEA (s.addr s.params.spIdx - BitVec.ofNat 64 n)) := by
  unfold State.push
  dsimp only
  cases h : s.memWrite (s.localEA (s.addr s.params.spIdx - BitVec.ofNat 64 n)) n v with
  | error e => rw [← memWrite_eq_error, h]; simp [bind, Except.bind]
  | ok u => rw [← memWrite_eq_error, h]; simp [bind, Except.bind, pure, Except.pure]

/-- A pop reads at SP and moves SP up, exactly where the slot is in bounds (R99). -/
theorem pop_eq_ok {v : BitVec (8 * n)} :
    s.pop n = .ok (v, t) ↔
      s.inBounds (s.localEA (s.addr s.params.spIdx)) n ∧
      v = BitVec.ofNat (8 * n) (leNat (s.mem.readBytes (s.localEA (s.addr s.params.spIdx)).toNat n)) ∧
      t = s.setAddr s.params.spIdx (s.addr s.params.spIdx + BitVec.ofNat 64 n) := by
  unfold State.pop
  cases h : s.memRead (s.localEA (s.addr s.params.spIdx)) n with
  | error e =>
    have := (memRead_eq_error.1 h).1
    simp only [bind, Except.bind, reduceCtorEq, false_iff]; exact fun h => this h.1
  | ok u =>
    obtain ⟨hb, rfl⟩ := memRead_eq_ok.1 h
    simp only [bind, Except.bind, pure, Except.pure, Except.ok.injEq, Prod.mk.injEq, hb, true_and]
    exact ⟨fun ⟨a, b⟩ => ⟨a.symm, b.symm⟩, fun ⟨a, b⟩ => ⟨a.symm, b.symm⟩⟩

/-- A pop faults exactly where its slot is out of bounds (R99). -/
theorem pop_eq_error :
    s.pop n = .error f ↔
      ¬ s.inBounds (s.localEA (s.addr s.params.spIdx)) n ∧ f = .memory (s.localEA (s.addr s.params.spIdx)) := by
  unfold State.pop
  cases h : s.memRead (s.localEA (s.addr s.params.spIdx)) n with
  | error e => rw [← memRead_eq_error, h]; simp [bind, Except.bind]
  | ok u => rw [← memRead_eq_error, h]; simp [bind, Except.bind, pure, Except.pure]

/-- Pushing a list of registers is pushing its first and then the rest (R122). -/
theorem pushRegs_cons_eq_ok {i : Nat} {is : List Nat} :
    s.pushRegs (i :: is) = .ok t ↔ ∃ u, s.push 16 (s.reg i) = .ok u ∧ u.pushRegs is = .ok t := by
  rw [State.pushRegs]
  cases s.push 16 (s.reg i) <;> simp [bind, Except.bind]

/-- Popping into a list of registers is popping into its first and then the rest (R123). -/
theorem popRegs_cons_eq_ok {i : Nat} {is : List Nat} :
    s.popRegs (i :: is) = .ok t ↔ ∃ v u, s.pop 16 = .ok (v, u) ∧ (u.setReg i v).popRegs is = .ok t := by
  rw [State.popRegs]
  cases s.pop 16 with
  | error e => simp [bind, Except.bind]
  | ok p => obtain ⟨v, u⟩ := p; simp [bind, Except.bind]

/-! ### Operands -/

/-- A used register operand is accepted exactly where its id is valid (R11). -/
theorem operand_eq_ok {nreg : Nat} {id : RegId} {v : View} : operand nreg id = .ok v ↔ viewOf nreg id = some v := by
  unfold operand; split <;> simp_all

/-- An invalid id is IllegalInstructionFault with that id (R11). -/
theorem operand_eq_error {nreg : Nat} {id : RegId} :
    operand nreg id = .error f ↔ viewOf nreg id = none ∧ f = .invalidRegister id := by
  unfold operand; split <;> rename_i h <;> simp [h, eq_comm]

/-- Two operands pass the width check exactly where their widths are equal (R60). -/
theorem sameWidth_eq_ok {v w : View} : sameWidth v w = .ok () ↔ v.width = w.width := by
  unfold sameWidth; split <;> simp_all

theorem sameWidth_eq_error {v w : View} : sameWidth v w = .error f ↔ v.width ≠ w.width ∧ f = .widthMismatch := by
  unfold sameWidth; split <;> simp_all [eq_comm]

/-- The width of the view an id names is the id's width code (R10). -/
theorem viewOf_width {nreg : Nat} {id : RegId} {v : View} (h : viewOf nreg id = some v) : v.width = regWidth id := by
  unfold viewOf at h; split at h
  · simp only [Option.some.injEq] at h; rw [← h]
  · cases h

/-- The register an id names is one of the machine's (R11). -/
theorem viewOf_reg_lt {nreg : Nat} {id : RegId} {v : View} (h : viewOf nreg id = some v) : v.reg < nreg := by
  unfold viewOf at h; split at h
  · simp only [Option.some.injEq] at h; rw [← h]; assumption
  · cases h

/-! ### How an instruction ends -/

/-- An instruction ends with its effects, or with a fault taken from the state it started in (R71). -/
theorem finish_eq_next {i : Instr} {r : Except Fault State} :
    finish i s r = .next t ↔ r = .ok t ∨ ∃ f, r = .error f ∧ t = faultOf i f s := by
  cases r <;> simp [finish, eq_comm]

end Sys2Proof.Laws
end

