-- ==== Sys2Proof/Laws/PerInstr.lean ====
section
/-! SUPPORT. Laws said per instruction, as syntax: one lemma per constructor of `Instr`. -/

namespace Sys2Proof.Laws

open Machine

/-- The length of an encoding is the instruction's length, one of 3, 4, 5, 7, 11 and 19 bytes (30_encoding.md R55). -/
def EncodedLength.Statement (i : Instr) : Prop := (encode i).length = i.length ∧ i.length ∈ [3, 4, 5, 7, 11, 19]

theorem EncodedLength.of_trailing {i : Instr} (h : i.trailing.length ∈ [0, 1, 2, 4, 8, 16]) :
    EncodedLength.Statement i := by
  refine ⟨by simp only [encode, Instr.length, List.length_cons]; omega, ?_⟩
  simp only [List.mem_cons, List.not_mem_nil, or_false, Instr.length] at h ⊢
  omega

theorem EncodedLength.leBytes_mem {i : Instr} {n v : Nat} (h : i.trailing = leBytes n v) (hn : n ∈ [0, 1, 2, 4, 8, 16]) :
    EncodedLength.Statement i := EncodedLength.of_trailing (by rw [h, leBytes_length]; exact hn)

theorem Width.bytes_mem (w : Width) : w.bytes ∈ [0, 1, 2, 4, 8, 16] := by cases w <;> decide

theorem EncodedLength.mov (dest src : RegId) : EncodedLength.Statement (.mov dest src) :=
  EncodedLength.of_trailing (by simp [Instr.trailing])

theorem EncodedLength.movi (dest : RegId) (imm : BitVec 128) : EncodedLength.Statement (.movi dest imm) :=
  EncodedLength.leBytes_mem rfl (Width.bytes_mem _)

theorem EncodedLength.ldl (dest : RegId) (addr : Addr) : EncodedLength.Statement (.ldl dest addr) :=
  EncodedLength.leBytes_mem rfl (by decide)

theorem EncodedLength.stl (src : RegId) (addr : Addr) : EncodedLength.Statement (.stl src addr) :=
  EncodedLength.leBytes_mem rfl (by decide)

theorem EncodedLength.ldg (dest : RegId) (addr : Addr) : EncodedLength.Statement (.ldg dest addr) :=
  EncodedLength.leBytes_mem rfl (by decide)

theorem EncodedLength.stg (src : RegId) (addr : Addr) : EncodedLength.Statement (.stg src addr) :=
  EncodedLength.leBytes_mem rfl (by decide)

theorem EncodedLength.sum (dest src1 src2 : RegId) : EncodedLength.Statement (.sum dest src1 src2) :=
  EncodedLength.of_trailing (by simp [Instr.trailing])

theorem EncodedLength.sub (dest src1 src2 : RegId) : EncodedLength.Statement (.sub dest src1 src2) :=
  EncodedLength.of_trailing (by simp [Instr.trailing])

theorem EncodedLength.cmp (a b : RegId) : EncodedLength.Statement (.cmp a b) :=
  EncodedLength.of_trailing (by simp [Instr.trailing])

theorem EncodedLength.mul (dest src1 src2 : RegId) : EncodedLength.Statement (.mul dest src1 src2) :=
  EncodedLength.of_trailing (by simp [Instr.trailing])

theorem EncodedLength.div (dest src1 src2 : RegId) : EncodedLength.Statement (.div dest src1 src2) :=
  EncodedLength.of_trailing (by simp [Instr.trailing])

theorem EncodedLength.idiv (dest src1 src2 : RegId) : EncodedLength.Statement (.idiv dest src1 src2) :=
  EncodedLength.of_trailing (by simp [Instr.trailing])

theorem EncodedLength.push (src : RegId) : EncodedLength.Statement (.push src) :=
  EncodedLength.of_trailing (by simp [Instr.trailing])

theorem EncodedLength.pop (dest : RegId) : EncodedLength.Statement (.pop dest) :=
  EncodedLength.of_trailing (by simp [Instr.trailing])

theorem EncodedLength.pushi128 (g : Byte) (imm : BitVec 128) : EncodedLength.Statement (.pushi128 g imm) :=
  EncodedLength.leBytes_mem rfl (by decide)

theorem EncodedLength.pushi64 (g : Byte) (imm : BitVec 64) : EncodedLength.Statement (.pushi64 g imm) :=
  EncodedLength.leBytes_mem rfl (by decide)

theorem EncodedLength.pushi32 (g : Byte) (imm : BitVec 32) : EncodedLength.Statement (.pushi32 g imm) :=
  EncodedLength.leBytes_mem rfl (by decide)

theorem EncodedLength.pushi16 (g : Byte) (imm : BitVec 16) : EncodedLength.Statement (.pushi16 g imm) :=
  EncodedLength.leBytes_mem rfl (by decide)

theorem EncodedLength.pushi8 (g : Byte) (imm : BitVec 8) : EncodedLength.Statement (.pushi8 g imm) :=
  EncodedLength.leBytes_mem rfl (by decide)

theorem EncodedLength.je (g : Byte) (target : Addr) : EncodedLength.Statement (.je g target) :=
  EncodedLength.leBytes_mem rfl (by decide)

theorem EncodedLength.jne (g : Byte) (target : Addr) : EncodedLength.Statement (.jne g target) :=
  EncodedLength.leBytes_mem rfl (by decide)

theorem EncodedLength.jl (g : Byte) (target : Addr) : EncodedLength.Statement (.jl g target) :=
  EncodedLength.leBytes_mem rfl (by decide)

theorem EncodedLength.jb (g : Byte) (target : Addr) : EncodedLength.Statement (.jb g target) :=
  EncodedLength.leBytes_mem rfl (by decide)

theorem EncodedLength.jle (g : Byte) (target : Addr) : EncodedLength.Statement (.jle g target) :=
  EncodedLength.leBytes_mem rfl (by decide)

theorem EncodedLength.jbe (g : Byte) (target : Addr) : EncodedLength.Statement (.jbe g target) :=
  EncodedLength.leBytes_mem rfl (by decide)

theorem EncodedLength.call (g : Byte) (target : Addr) : EncodedLength.Statement (.call g target) :=
  EncodedLength.leBytes_mem rfl (by decide)

theorem EncodedLength.callr (r : RegId) : EncodedLength.Statement (.callr r) :=
  EncodedLength.of_trailing (by simp [Instr.trailing])

theorem EncodedLength.ret (g : Byte) : EncodedLength.Statement (.ret g) :=
  EncodedLength.of_trailing (by simp [Instr.trailing])

theorem EncodedLength.int (g id : Byte) : EncodedLength.Statement (.int g id) :=
  EncodedLength.of_trailing (by simp [Instr.trailing])

theorem EncodedLength.iret (g : Byte) : EncodedLength.Statement (.iret g) :=
  EncodedLength.of_trailing (by simp [Instr.trailing])

theorem EncodedLength.hlt (var g : Byte) : EncodedLength.Statement (.hlt var g) :=
  EncodedLength.of_trailing (by simp [Instr.trailing])

end Sys2Proof.Laws
end

