-- ==== Sys2Proof/Laws/Decode.lean ====
section
/-! SUPPORT. Laws of the decoder's table and of the fetch. -/

namespace Sys2Proof.Laws

open Machine

/-- The instruction a header's row builds has the family, variant and register-operand bytes of that header, and the
trailing length the row gives (R61, R62). -/
theorem decodeHeader_build {e : Bool} {fam var g : Byte} {l : Nat} {build : List Byte → Instr} (t : List Byte)
    (h : decodeHeader e fam var g = some (l, build)) :
    (build t).fam = fam ∧ (build t).var = var ∧ (build t).g = g ∧ (build t).trailing.length = l := by
  unfold decodeHeader at h
  split at h <;> (try split at h) <;> (try cases h)
  all_goals
    refine ⟨BitVec.eq_of_toNat_eq ?_, BitVec.eq_of_toNat_eq ?_, rfl, ?_⟩
    all_goals simp_all [Instr.fam, Instr.var, Instr.trailing]

end Sys2Proof.Laws
end

