-- ==== Sys2Proof/Laws/Exec.lean ====
section
/-! SUPPORT. What any instruction can do, said once: `exec_cases`. Invariants of the machine follow from it without
unfolding a meaning. -/

namespace Sys2Proof.Laws

open Machine

/-- `b` comes from `a` by writes of bytes below `size`. -/
inductive Writes (size : Nat) : Memory → Memory → Prop where
  | refl (m : Memory) : Writes size m m
  | step {m m' : Memory} (a : Nat) (bs : List Byte) (h : a + bs.length ≤ size) (w : Writes size m m') :
      Writes size m (m'.writeBytes a bs)

theorem Writes.trans {size : Nat} {a b c : Memory} (h : Writes size a b) (k : Writes size b c) : Writes size a c := by
  induction k with
  | refl => exact h
  | step a bs hb _ ih => exact .step a bs hb ih

/-- Writes below `size` keep the canonical form and the bound on the cells. -/
theorem Writes.sound {size : Nat} {m m' : Memory} (w : Writes size m m') (hw : m.wf = true)
    (hb : ∀ c ∈ m.cells, c.1 < size) : m'.wf = true ∧ ∀ c ∈ m'.cells, c.1 < size := by
  induction w with
  | refl => exact ⟨hw, hb⟩
  | step a bs h _ ih =>
    refine ⟨writeBytes_wf (ih).1 a bs, fun c hc => ?_⟩
    rcases mem_writeBytes hc with hc | hc
    · exact ih.2 c hc
    · omega

/-- What an effect without a fault leaves of all but the registers' values: the parameters, the number of registers and
the reports kept, memory reached by writes in bounds, and the flags as `P` says. -/
structure Effect (s t : State) (P : Flags → Prop) : Prop where
  params : t.params = s.params
  length : t.regs.length = s.regs.length
  reports : t.reports = s.reports
  mem : Writes s.params.memSize s.mem t.mem
  flags : P t.flags

variable {s t u : State}

theorem Effect.of_regs (hl : t.regs.length = s.regs.length) (hm : t.mem = s.mem) (hf : t.flags = s.flags)
    (hp : t.params = s.params) (hr : t.reports = s.reports) : Effect s t (· = s.flags) := ⟨hp, hl, hr, hm ▸ .refl _, hf⟩

theorem Effect.trans (h : Effect s t (· = s.flags)) (k : Effect t u (· = t.flags)) : Effect s u (· = s.flags) :=
  ⟨k.params.trans h.params, k.length.trans h.length, k.reports.trans h.reports, h.mem.trans (h.params ▸ k.mem), k.flags.trans h.flags⟩

theorem effect_memWrite {ea : Addr} {n : Nat} {v : BitVec (8 * n)} (h : s.memWrite ea n v = .ok t) :
    Effect s t (· = s.flags) := by
  obtain ⟨hb, rfl⟩ := memWrite_eq_ok.1 h
  exact ⟨rfl, rfl, rfl, .step _ _ (by simpa using hb) (.refl _), rfl⟩

theorem effect_push {n : Nat} {v : BitVec (8 * n)} (h : s.push n v = .ok t) : Effect s t (· = s.flags) := by
  obtain ⟨hb, rfl⟩ := push_eq_ok.1 h
  exact ⟨rfl, setAddr_length .., rfl, .step _ _ (by simpa using hb) (.refl _), rfl⟩

theorem effect_pop {n : Nat} {v : BitVec (8 * n)} (h : s.pop n = .ok (v, t)) : Effect s t (· = s.flags) := by
  obtain ⟨-, -, rfl⟩ := pop_eq_ok.1 h
  exact .of_regs (setAddr_length ..) rfl rfl rfl rfl

theorem effect_pushRegs {is : List Nat} (h : s.pushRegs is = .ok t) : Effect s t (· = s.flags) := by
  induction is generalizing s with
  | nil => cases h; exact .of_regs rfl rfl rfl rfl rfl
  | cons i is ih =>
    obtain ⟨u, hu, ht⟩ := pushRegs_cons_eq_ok.1 h
    exact (effect_push hu).trans (ih ht)

theorem effect_popRegs {is : List Nat} (h : s.popRegs is = .ok t) : Effect s t (· = s.flags) := by
  induction is generalizing s with
  | nil => cases h; exact .of_regs rfl rfl rfl rfl rfl
  | cons i is ih =>
    obtain ⟨v, u, hu, ht⟩ := popRegs_cons_eq_ok.1 h
    have hi : Effect u (u.setReg i v) (· = u.flags) := .of_regs (setReg_length ..) rfl rfl rfl rfl
    exact ((effect_pop hu).trans hi).trans (ih ht)

theorem effect_setPc (a : Addr) : Effect s (s.setPc a) (· = s.flags) :=
  .of_regs (setPc_length ..) rfl rfl rfl rfl

/-- A bind that answers has a first part that answers. -/
theorem bind_eq_ok {α β : Type} {x : Except Fault α} {k : α → Except Fault β} {b : β} :
    (x >>= k) = .ok b ↔ ∃ a, x = .ok a ∧ k a = .ok b := by cases x <;> simp [bind, Except.bind]

theorem pure_eq_ok {α : Type} {a b : α} : (pure a : Except Fault α) = .ok b ↔ a = b := by
  simp [pure, Except.pure]

/-- The flags an ALU call leaves. -/
def AluFlags (f g : Flags) : Prop := ∃ (n : Nat) (a b : BitVec n), g = compareFlags a b f

theorem effect_aluTriple {op : AluOp} {d a b : RegId} (h : aluTriple op d a b s = .ok t) :
    Effect s t (AluFlags s.flags) := by
  simp only [aluTriple, bind_eq_ok, pure_eq_ok] at h
  obtain ⟨_, _, _, _, _, _, _, _, _, _, _, _, rfl⟩ := h
  exact ⟨rfl, writeView_length .., rfl, .refl _, _, _, _, rfl⟩

theorem effect_loadView {d : RegId} {ea : Addr} (h : loadView s d ea = .ok t) : Effect s t (· = s.flags) := by
  simp only [loadView, bind_eq_ok, pure_eq_ok] at h
  obtain ⟨_, _, _, _, rfl⟩ := h
  exact .of_regs (writeView_length ..) rfl rfl rfl rfl

theorem effect_storeView {r : RegId} {ea : Addr} (h : storeView s r ea = .ok t) : Effect s t (· = s.flags) := by
  simp only [storeView, bind_eq_ok] at h
  obtain ⟨_, _, h⟩ := h
  exact effect_memWrite h

theorem effect_callTo {a : Addr} (h : callTo a s = .ok t) : Effect s t (· = s.flags) := by
  simp only [callTo, bind_eq_ok, pure_eq_ok] at h
  obtain ⟨_, h, rfl⟩ := h
  exact (effect_push h).trans (effect_setPc _)

theorem effect_jumpIf {c : Bool} {a : Addr} (h : (Except.ok (jumpIf c a s) : Except Fault State) = .ok t) :
    Effect s t (· = s.flags) := by
  cases h
  unfold jumpIf
  split
  · exact effect_setPc _
  · exact .of_regs rfl rfl rfl rfl rfl

/-- The flags an instruction without a fault may leave (R23): family 0x01 refreshes the comparison flags, HLT clears RUNNING,
every other instruction keeps them all. -/
def FlagsAfter (i : Instr) (f g : Flags) : Prop :=
  if i.fam = 0x01 then AluFlags f g else if i.fam = 0xFF then g = { f with running := false } else g = f

/-- What an instruction can do: take a fault from the state it started in, or have an effect in which parameters,
number of registers and reports are kept, memory changes by writes in bounds and the flags change as R23 allows. -/
theorem exec_cases (i : Instr) (s t : State) (h : exec i s = .next t) :
    (∃ f, t = faultOf i f s) ∨ Effect s t (FlagsAfter i s.flags) := by
  have key : ∀ r, exec i s = finish i s r → (∀ t, r = .ok t → Effect s t (FlagsAfter i s.flags)) →
      (∃ f, t = faultOf i f s) ∨ Effect s t (FlagsAfter i s.flags) := by
    intro r hr hk
    rcases finish_eq_next.1 (hr ▸ h) with h | ⟨f, -, h⟩
    · exact .inr (hk t h)
    · exact .inl ⟨f, h⟩
  cases i with
  | mov d a =>
    refine key _ rfl fun t ht => ?_
    simp only [bind_eq_ok, pure_eq_ok] at ht
    obtain ⟨_, _, _, _, _, _, rfl⟩ := ht
    exact .of_regs (writeView_length ..) rfl rfl rfl rfl
  | movi d imm =>
    refine key _ rfl fun t ht => ?_
    simp only [bind_eq_ok, pure_eq_ok] at ht
    obtain ⟨_, _, rfl⟩ := ht
    exact .of_regs (writeView_length ..) rfl rfl rfl rfl
  | ldl d a => exact key _ rfl fun t ht => effect_loadView ht
  | stl d a => exact key _ rfl fun t ht => effect_storeView ht
  | ldg d a => exact key _ rfl fun t ht => effect_loadView ht
  | stg d a => exact key _ rfl fun t ht => effect_storeView ht
  | sum d a b => exact key _ rfl fun t ht => effect_aluTriple ht
  | sub d a b => exact key _ rfl fun t ht => effect_aluTriple ht
  | cmp a b =>
    refine key _ rfl fun t ht => ?_
    simp only [bind_eq_ok, pure_eq_ok] at ht
    obtain ⟨_, _, _, _, _, _, _, _, rfl⟩ := ht
    exact ⟨rfl, rfl, rfl, .refl _, _, _, _, rfl⟩
  | mul d a b => exact key _ rfl fun t ht => effect_aluTriple ht
  | div d a b => exact key _ rfl fun t ht => effect_aluTriple ht
  | idiv d a b => exact key _ rfl fun t ht => effect_aluTriple ht
  | push r =>
    refine key _ rfl fun t ht => ?_
    simp only [bind_eq_ok] at ht
    obtain ⟨_, _, h⟩ := ht
    exact effect_push h
  | pop d =>
    refine key _ rfl fun t ht => ?_
    simp only [bind_eq_ok, pure_eq_ok] at ht
    obtain ⟨_, _, ⟨_, _⟩, h, rfl⟩ := ht
    exact (effect_pop h).trans (.of_regs (writeView_length ..) rfl rfl rfl rfl)
  | pushi128 g v => exact key _ rfl fun t ht => effect_push ht
  | pushi64 g v => exact key _ rfl fun t ht => effect_push ht
  | pushi32 g v => exact key _ rfl fun t ht => effect_push ht
  | pushi16 g v => exact key _ rfl fun t ht => effect_push ht
  | pushi8 g v => exact key _ rfl fun t ht => effect_push ht
  | je g a => exact key _ rfl fun t ht => effect_jumpIf ht
  | jne g a => exact key _ rfl fun t ht => effect_jumpIf ht
  | jl g a => exact key _ rfl fun t ht => effect_jumpIf ht
  | jb g a => exact key _ rfl fun t ht => effect_jumpIf ht
  | jle g a => exact key _ rfl fun t ht => effect_jumpIf ht
  | jbe g a => exact key _ rfl fun t ht => effect_jumpIf ht
  | call g a => exact key _ rfl fun t ht => effect_callTo ht
  | callr r =>
    refine key _ rfl fun t ht => ?_
    simp only [bind_eq_ok] at ht
    obtain ⟨_, _, h⟩ := ht
    exact effect_callTo h
  | ret g =>
    refine key _ rfl fun t ht => ?_
    simp only [bind_eq_ok, pure_eq_ok] at ht
    obtain ⟨⟨_, _⟩, h, rfl⟩ := ht
    exact (effect_pop h).trans (effect_setPc _)
  | int g id =>
    refine key _ rfl fun t ht => ?_
    simp only [trapEnter, bind_eq_ok, pure_eq_ok] at ht
    obtain ⟨_, h, _, _, rfl⟩ := ht
    exact (effect_pushRegs h).trans (effect_setPc _)
  | iret g => exact key _ rfl fun t ht => effect_popRegs ht
  | hlt v g =>
    refine key (.ok { s with flags := { s.flags with running := false } }) rfl fun t ht => ?_
    cases ht
    exact ⟨rfl, rfl, rfl, .refl _, rfl⟩

/-- Every instruction ends as `finish` says: with effects, or with a fault taken. -/
theorem exec_eq_finish (i : Instr) (s : State) : ∃ r, exec i s = finish i s r := by
  cases i <;> first | exact ⟨_, rfl⟩ | exact ⟨.ok _, rfl⟩

end Sys2Proof.Laws
end

