-- ==== Sys2Proof/Laws/Regs.lean ====
section
/-! SUPPORT. Laws of a sound Register File (`State.regsSound`): PC, SP, LO and IP are four registers of it, every
operation keeps it sound, and a register written is read back. -/

namespace Sys2Proof.Laws

open Machine

theorem regsSound_iff {s : State} :
    s.regsSound = true ↔ 5 ≤ s.params.nreg ∧ s.regs.length = s.params.nreg := by
  simp [State.regsSound]

/-! ### PC, SP, LO and IP -/

/-- PC, SP, LO and IP follow one another at the top of the registers (R16). -/
theorem idx_order {p : Params} (h : 5 ≤ p.nreg) :
    p.pcIdx < p.spIdx ∧ p.spIdx < p.loIdx ∧ p.loIdx < p.ipIdx ∧ p.ipIdx < p.nreg := by
  unfold Params.pcIdx Params.spIdx Params.loIdx Params.ipIdx; omega

variable {s : State}

theorem pcIdx_lt (h : s.regsSound = true) : s.params.pcIdx < s.regs.length := by
  obtain ⟨h5, hl⟩ := regsSound_iff.1 h; have := idx_order h5; omega

theorem spIdx_lt (h : s.regsSound = true) : s.params.spIdx < s.regs.length := by
  obtain ⟨h5, hl⟩ := regsSound_iff.1 h; have := idx_order h5; omega

theorem spIdx_ne_pcIdx (h : s.regsSound = true) : s.params.spIdx ≠ s.params.pcIdx := by
  have := idx_order (regsSound_iff.1 h).1; omega

theorem loIdx_ne_spIdx (h : s.regsSound = true) : s.params.loIdx ≠ s.params.spIdx := by
  have := idx_order (regsSound_iff.1 h).1; omega

theorem loIdx_ne_pcIdx (h : s.regsSound = true) : s.params.loIdx ≠ s.params.pcIdx := by
  have := idx_order (regsSound_iff.1 h).1; omega

/-- The register a valid id names is one of the Register File (R11). -/
theorem names_lt {id : RegId} {v : View} (h : s.regsSound = true) (hv : s.names id v) : v.reg < s.regs.length := by
  have := viewOf_reg_lt hv; have := (regsSound_iff.1 h).2; omega

/-! ### Soundness kept -/

/-- A state with as many registers and the same parameters has a sound Register File too. -/
theorem regsSound_congr {t : State} (hp : t.params = s.params) (hl : t.regs.length = s.regs.length) :
    t.regsSound = s.regsSound := by
  unfold State.regsSound; rw [hp, hl]

@[simp] theorem setReg_regsSound (i : Nat) (v : Word) : (s.setReg i v).regsSound = s.regsSound :=
  regsSound_congr rfl (setReg_length ..)
@[simp] theorem setAddr_regsSound (i : Nat) (a : Addr) : (s.setAddr i a).regsSound = s.regsSound :=
  regsSound_congr rfl (setAddr_length ..)
@[simp] theorem setPc_regsSound (a : Addr) : (s.setPc a).regsSound = s.regsSound :=
  regsSound_congr rfl (setPc_length ..)
@[simp] theorem writeView_regsSound (d : View) (v : BitVec d.width.bits) : (s.writeView d v).regsSound = s.regsSound :=
  regsSound_congr rfl (writeView_length ..)
@[simp] theorem mem_regsSound (m : Memory) : State.regsSound { s with mem := m } = s.regsSound := rfl

/-! ### PC and SP written -/

theorem setPc_reg (h : s.regsSound = true) (j : Nat) (a : Addr) :
    (s.setPc a).reg j = if j = s.params.pcIdx then (s.reg s.params.pcIdx).extractLsb' 64 64 ++ a else s.reg j :=
  setAddr_reg s j a (pcIdx_lt h)

theorem setPc_addr (h : s.regsSound = true) (j : Nat) (a : Addr) :
    (s.setPc a).addr j = if j = s.params.pcIdx then a else s.addr j := setAddr_addr s j a (pcIdx_lt h)

/-- The PC that was set is read back. -/
theorem setPc_pc (h : s.regsSound = true) (a : Addr) : (s.setPc a).pc = a := by
  unfold State.pc; rw [setPc_params, setPc_addr h, if_pos rfl]

/-- Moving PC moves no local address. -/
theorem setPc_localEA (h : s.regsSound = true) (a b : Addr) : (s.setPc a).localEA b = s.localEA b :=
  setAddr_localEA_ne s a b (loIdx_ne_pcIdx h)

/-- Moving SP moves no local address. -/
theorem setSp_localEA (h : s.regsSound = true) (a b : Addr) : (s.setAddr s.params.spIdx a).localEA b = s.localEA b :=
  setAddr_localEA_ne s a b (loIdx_ne_spIdx h)

/-- The Register File a core starts with is sound. -/
theorem boot_regsSound {p : Params} (h : 5 ≤ p.nreg) : (State.boot p).regsSound = true :=
  regsSound_iff.2 ⟨h, by simp [State.boot]⟩

end Sys2Proof.Laws
end

