-- ==== Sys2Proof/Tests/Slice0.lean ====
section
/-! SUPPORT. Own tests. Expected results are those of spec/95_test_vectors.md (the section named in each docstring) or
written out by hand from the encodings of spec/30_encoding.md; none is the model's own answer. The last part holds one
witness for the hypotheses of each statement of Certificates/Slice0/Obligations.lean. -/

/- The tests are checked one after another, so that their kernel evaluations do not pile up in waiting threads. -/
set_option Elab.async false

namespace Sys2Proof.Tests

open Machine Laws

/-! ### Helpers -/

/-- The common start state of 95_test_vectors.md with registers and memory bytes set and the flags given. -/
def start (regs : List (Nat × Word)) (cells : List (Nat × List Byte) := [])
    (flags : Flags := ⟨true, false, false, false⟩) : State :=
  let s := cells.foldl (fun s c => { s with mem := s.mem.writeBytes c.1 c.2 }) State.reset
  { regs.foldl (fun s r => s.setReg r.1 r.2) s with flags := flags }

/-- One step with the bytes placed at the program counter. -/
def run1 (s : State) (bs : List Byte) : State :=
  match step { s with mem := s.mem.writeBytes (s.localEA s.pc).toNat bs } with
  | .next t => t
  | _ => s

/-- The state an instruction leaves. -/
def after (i : Instr) (s : State) : State :=
  match exec i s with
  | .next t => t
  | _ => s

/-- The fault reports' codes and start PCs, newest first. -/
def faults (s : State) : List (Nat × Addr) := s.reports.map fun r => (r.fault.code, r.startPc)

/-! ### Register ids, views, flags, reset -/

/-- 1.1: ids 0, 42, 234, 236, 254 and 255. -/
theorem test_view_ids :
    viewOf 51 0 = some ⟨0, .w128⟩ ∧ viewOf 51 42 = some ⟨8, .w32⟩ ∧ viewOf 51 234 = some ⟨46, .w8⟩ ∧
    viewOf 51 236 = some ⟨47, .w64⟩ ∧ viewOf 51 254 = some ⟨50, .w8⟩ ∧ viewOf 51 255 = none := by decide

/-- 2.1: write id 3 := 0xBEEF. -/
theorem test_write_view16 :
    ((start [(0, 0x00112233445566778899AABBCCDDEEFF)]).writeReg 0 .w16 0xBEEF).reg 0 =
      0x00112233445566778899AABBCCDDBEEF := by decide +kernel

/-- 2.1: read id 1. -/
theorem test_read_view64 :
    (start [(0, 0x00112233445566778899AABBCCDDEEFF)]).readReg 0 .w64 = 0x8899AABBCCDDEEFF := by decide +kernel

/-- R22: RUNNING is bit 0, EQUALS bit 1, LESS bit 2, MORE bit 3. -/
theorem test_flag_bits :
    Flags.toBits ⟨true, false, false, false⟩ = 1 ∧ Flags.toBits ⟨false, true, false, false⟩ = 2 ∧
    Flags.toBits ⟨false, false, true, false⟩ = 4 ∧ Flags.toBits ⟨false, false, false, true⟩ = 8 := by decide

/-- R29: PC = SP = 0x400, the other registers 0, RUNNING alone set. -/
theorem test_reset :
    State.reset.pc = 0x400 ∧ State.reset.addr 48 = 0x400 ∧ State.reset.reg 49 = 0 ∧ State.reset.reg 50 = 0 ∧
    State.reset.reg 0 = 0 ∧ State.reset.flags.toBits = 1 ∧ State.reset.mem.read 0x400 = 0 := by decide +kernel

/-- R40: a 4-byte write of 0x11223344 at 0x10, read back in pieces. -/
theorem test_byte_order :
    let m := (Memory.mk []).writeBytes 0x10 (leBytes 4 0x11223344)
    leNat (m.readBytes 0x10 1) = 0x44 ∧ leNat (m.readBytes 0x10 2) = 0x3344 ∧ leNat (m.readBytes 0x12 2) = 0x1122 := by
  decide +kernel

/-- R116: the conditions in the reset, equal, less and more states. -/
theorem test_conditions :
    [condJe, condJne, condJl, condJb, condJle, condJbe].map (fun c => c ⟨true, false, false, false⟩) =
      [false, true, false, false, false, true] ∧
    [condJe, condJne, condJl, condJb, condJle, condJbe].map (fun c => c ⟨true, true, false, false⟩) =
      [true, false, false, false, true, true] ∧
    [condJe, condJne, condJl, condJb, condJle, condJbe].map (fun c => c ⟨true, false, true, false⟩) =
      [false, true, true, false, true, true] ∧
    [condJe, condJne, condJl, condJb, condJle, condJbe].map (fun c => c ⟨true, false, false, true⟩) =
      [false, true, false, true, false, false] := by decide

/-! ### WellFormed: an ill-formed term for each check -/

/-- R11: id 255 names no register. -/
theorem test_wf_refuses_invalid_id : (Instr.push 255).idsValid 51 = false ∧ (Instr.push 255).wellFormed 51 = false := by decide

/-- R60: operands of 32 and 64 bits. -/
theorem test_wf_refuses_width_mismatch :
    (Instr.mov 2 6).widthsAgree = false ∧ (Instr.sum 2 7 6).widthsAgree = false ∧ (Instr.mov 2 6).wellFormed 51 = false := by
  decide

/-- R56: an immediate of 9 bits for an 8-bit view. -/
theorem test_wf_refuses_wide_immediate :
    (Instr.movi 4 256).immFits = false ∧ (Instr.movi 4 256).wellFormed 51 = false ∧ (Instr.movi 4 255).wellFormed 51 = true := by
  decide

/-! ### Decoding: a word written out from the spec's encoding of each constructor -/

theorem test_decode_mov : decode true [0x00, 0x00, 0x02, 0x07] = .ok (.mov 2 7, []) := rfl

theorem test_decode_movi : decode true [0x00, 0x01, 0x0C, 0x04, 0x03, 0x02, 0x01] = .ok (.movi 12 0x01020304, []) := rfl

theorem test_decode_ldl : decode true [0x00, 0x02, 0x04, 0x10, 0x20, 0, 0, 0, 0, 0, 0x80] = .ok (.ldl 4 0x8000000000002010, []) :=
  rfl

theorem test_decode_stl : decode true [0x00, 0x03, 0x03, 0x10, 0, 0, 0, 0, 0, 0, 0] = .ok (.stl 3 0x10, []) := rfl

theorem test_decode_ldg : decode true [0x00, 0x04, 0x03, 0xFF, 0xFF, 0, 0, 0, 0, 0, 0] = .ok (.ldg 3 0xFFFF, []) := rfl

theorem test_decode_stg : decode true [0x00, 0x05, 0x06, 0x00, 0x20, 0, 0, 0, 0, 0, 0] = .ok (.stg 6 0x2000, []) := rfl

theorem test_decode_sum : decode true [0x01, 0x00, 0x02, 0x07, 0x0C] = .ok (.sum 2 7 12, []) := rfl

theorem test_decode_sub : decode true [0x01, 0x01, 0x04, 0x09, 0x0E] = .ok (.sub 4 9 14, []) := rfl

theorem test_decode_cmp : decode true [0x01, 0x02, 0x07, 0x0C] = .ok (.cmp 7 12, []) := rfl

theorem test_decode_mul : decode true [0x01, 0x03, 0x03, 0x08, 0x0D] = .ok (.mul 3 8 13, []) := rfl

theorem test_decode_div : decode true [0x01, 0x04, 0x00, 0x05, 0x0A] = .ok (.div 0 5 10, []) := rfl

theorem test_decode_idiv : decode true [0x01, 0x05, 0x03, 0x08, 0x0D] = .ok (.idiv 3 8 13, []) := rfl

theorem test_decode_push : decode true [0x02, 0x00, 0xF1] = .ok (.push 241, []) := rfl

theorem test_decode_pop : decode true [0x02, 0x01, 0x0B] = .ok (.pop 11, []) := rfl

theorem test_decode_pushi128 :
    decode true [0x02, 0x02, 0x00, 1, 0, 0, 0, 0, 0, 0, 0, 0, 0, 0, 0, 0, 0, 0, 0x80] =
      .ok (.pushi128 0 0x80000000000000000000000000000001, []) := rfl

theorem test_decode_pushi64 : decode true [0x02, 0x03, 0x00, 0x00, 0x05, 0, 0, 0, 0, 0, 0] = .ok (.pushi64 0 0x500, []) := rfl

theorem test_decode_pushi32 : decode true [0x02, 0x04, 0x00, 0xBE, 0xBA, 0xFE, 0xCA] = .ok (.pushi32 0 0xCAFEBABE, []) := rfl

theorem test_decode_pushi16 : decode true [0x02, 0x05, 0x00, 0x34, 0x12] = .ok (.pushi16 0 0x1234, []) := rfl

theorem test_decode_pushi8 : decode true [0x02, 0x06, 0x09, 0x7F] = .ok (.pushi8 9 0x7F, []) := rfl

theorem test_decode_je : decode true [0x03, 0x00, 0x00, 0x00, 0x05, 0, 0, 0, 0, 0, 0] = .ok (.je 0 0x500, []) := rfl

theorem test_decode_jne : decode true [0x03, 0x01, 0x00, 0x1C, 0x04, 0, 0, 0, 0, 0, 0] = .ok (.jne 0 0x41C, []) := rfl

theorem test_decode_jl : decode true [0x03, 0x02, 0x00, 0x00, 0x05, 0, 0, 0, 0, 0, 0] = .ok (.jl 0 0x500, []) := rfl

theorem test_decode_jb : decode true [0x03, 0x03, 0x00, 0x00, 0x05, 0, 0, 0, 0, 0, 0] = .ok (.jb 0 0x500, []) := rfl

theorem test_decode_jle : decode true [0x03, 0x04, 0x00, 0x00, 0x05, 0, 0, 0, 0, 0, 0] = .ok (.jle 0 0x500, []) := rfl

theorem test_decode_jbe : decode true [0x03, 0x05, 0x00, 0x00, 0x05, 0, 0, 0, 0, 0, 0] = .ok (.jbe 0 0x500, []) := rfl

theorem test_decode_call : decode true [0x03, 0x06, 0x00, 0x30, 0x04, 0, 0, 0, 0, 0, 0] = .ok (.call 0 0x430, []) := rfl

theorem test_decode_callr : decode true [0x03, 0x07, 0x1A] = .ok (.callr 26, []) := rfl

theorem test_decode_ret : decode true [0x03, 0x08, 0x00] = .ok (.ret 0, []) := rfl

theorem test_decode_int : decode true [0x03, 0x09, 0x00, 0x02] = .ok (.int 0 2, []) := rfl

theorem test_decode_iret : decode true [0x03, 0x0A, 0x00] = .ok (.iret 0, []) := rfl

theorem test_decode_hlt : decode true [0xFF, 0x37, 0xFE] = .ok (.hlt 0x37 0xFE, []) := rfl

/-- 2.2: unknown families and variants are refused by name, and so is IDIV where it is not enabled. -/
theorem test_decode_refuses :
    decode true [0x00, 0x06, 0x00] = .error (.unknownEncoding 0x00 0x06) ∧
    decode true [0x01, 0x06, 0x00] = .error (.unknownEncoding 0x01 0x06) ∧
    decode true [0x02, 0x07, 0x00] = .error (.unknownEncoding 0x02 0x07) ∧
    decode true [0x03, 0x0B, 0x00] = .error (.unknownEncoding 0x03 0x0B) ∧
    decode true [0x04, 0x00, 0x00] = .error (.unknownEncoding 0x04 0x00) ∧
    decode true [0xFE, 0x00, 0x00] = .error (.unknownEncoding 0xFE 0x00) ∧
    decode false [0x01, 0x05, 0x03, 0x08, 0x0D] = .error (.unknownEncoding 0x01 0x05) := ⟨rfl, rfl, rfl, rfl, rfl, rfl, rfl⟩

/-- INDEX.md: the table's word is `(byte0 << 8) | byte1`. -/
theorem test_table_words :
    decodeTableWord 16 0x0000 = some (.mov 0 0) ∧ decodeTableWord 16 0x0104 = some (.div 0 0 0) ∧
    decodeTableWord 16 0x0309 = some (.int 0 0) ∧ decodeTableWord 16 0xFF00 = some (.hlt 0 0) ∧
    decodeTableWord 16 0x0006 = none := ⟨rfl, rfl, rfl, rfl, rfl⟩

/-- The encoder writes the bytes of 2.6's CALL and of a 16-bit MOVI. -/
theorem test_encode :
    encode (.call 0 0x430) = [0x03, 0x06, 0x00, 0x30, 0x04, 0, 0, 0, 0, 0, 0] ∧
    encode (.movi 3 0x1234) = [0x00, 0x01, 0x03, 0x34, 0x12] := ⟨rfl, rfl⟩

/-! ### Data move -/

/-- 2.3: MOV r0.32, r1.32. -/
theorem test_mov_keeps_upper_bits :
    (run1 (start [(0, BitVec.allOnes 128), (1, 0xDEADBEEF)]) [0x00, 0x00, 0x02, 0x07]).reg 0 =
      0xFFFFFFFFFFFFFFFFFFFFFFFFDEADBEEF := by decide +kernel

/-- 2.2: MOV pc.8, r0.8 writes the low byte of the PC past the instruction. -/
theorem test_mov_pc8 : (run1 (start [(0, 0x20)]) [0x00, 0x00, 0xEF, 0x04]).pc = 0x420 := by decide +kernel

/-- 2.3: MOVI r0.8, 0. -/
theorem test_movi8 :
    (run1 (start [(0, BitVec.allOnes 128)]) [0x00, 0x01, 0x04, 0x00]).reg 0 = 0xFFFFFFFFFFFFFFFFFFFFFFFFFFFFFF00 := by
  decide +kernel

/-- 2.2: MOVI into id 255 reports IllegalInstructionFault past the whole instruction. -/
theorem test_movi_invalid_id :
    let t := run1 (start []) [0x00, 0x01, 0xFF]
    t.pc = 0x413 ∧ faults t = [(1, 0x400)] := by decide +kernel

/-- 2.3: LDL r0.8, [0x2010] with LO = 2^64 - 0x10 wraps to 0x2000. -/
theorem test_ldl_wraps :
    let t := run1 (start [(49, 0xFFFFFFFFFFFFFFF0)] [(0x2000, [0x5A])]) [0x00, 0x02, 0x04, 0x10, 0x20]
    t.reg 0 = 0x5A ∧ t.pc = 0x40B := by decide +kernel

/-- 2.3: LDG r0.8, [0x2000] does not add LO. -/
theorem test_ldg_ignores_lo :
    (run1 (start [(49, 0x100)] [(0x2000, [0xAB])]) [0x00, 0x04, 0x04, 0x00, 0x20]).reg 0 = 0xAB := by decide +kernel

/-- 2.3: LDG r0.16, [0xFFFF] runs past the end. -/
theorem test_ldg_out_of_bounds :
    let t := run1 (start [(0, 0x77)]) [0x00, 0x04, 0x03, 0xFF, 0xFF]
    t.reg 0 = 0x77 ∧ t.pc = 0x40B ∧ t.reports.map (·.fault) = [.memory 0xFFFF] := by decide +kernel

/-- 2.3: STL [0x10], r0.16. -/
theorem test_stl16 :
    (run1 (start [(0, 0x1122334455667788)]) [0x00, 0x03, 0x03, 0x10]).mem.readBytes 0x10 3 = [0x88, 0x77, 0x00] := by
  decide +kernel

/-- 2.3: STG [0xFFFF], r0.8 fits; STG [0xFFFF], r0.16 does not and writes nothing. -/
theorem test_stg_boundary :
    (run1 (start [(0, 0x1234)]) [0x00, 0x05, 0x04, 0xFF, 0xFF]).mem.read 0xFFFF = 0x34 ∧
    (run1 (start [(0, 0x1234)]) [0x00, 0x05, 0x03, 0xFF, 0xFF]).mem.read 0xFFFF = 0x00 := by decide +kernel

/-! ### Arithmetic -/

/-- 2.4: SUM r0.64 of 2^64 - 1 and 1 keeps the upper bits; MORE. -/
theorem test_sum64 :
    let t := run1 (start [(0, 0xFFFF0000000000000000), (1, 0xFFFFFFFFFFFFFFFF), (2, 1)]) [0x01, 0x00, 0x01, 0x06, 0x0B]
    t.reg 0 = 0xFFFF0000000000000000 ∧ t.flags.toBits = 9 := by decide +kernel

/-- 2.4: SUM id255, r1.32, r1.64: the invalid id comes before the width. -/
theorem test_sum_fault_order :
    (run1 (start []) [0x01, 0x00, 0xFF, 0x07, 0x06]).reports.map (·.fault) = [.invalidRegister 255] := by decide +kernel

/-- 2.4: SUB r0.8 of 3 and 5; LESS. -/
theorem test_sub8 :
    let t := run1 (start [(1, 3), (2, 5)]) [0x01, 0x01, 0x04, 0x09, 0x0E]
    t.reg 0 = 0xFE ∧ t.flags.toBits = 5 := by decide +kernel

/-- 1.7: CMP of equal 32-bit views of unequal registers; EQUALS. -/
theorem test_cmp32 :
    let t := run1 (start [(1, 0x100000005), (2, 5)]) [0x01, 0x02, 0x07, 0x0C]
    t.flags.toBits = 3 ∧ t.reg 1 = 0x100000005 := by decide +kernel

/-- 2.4: MUL r0.8 of 0xFF and 0xFF; EQUALS. -/
theorem test_mul8 :
    let t := run1 (start [(1, 0xFF), (2, 0xFF)]) [0x01, 0x03, 0x04, 0x09, 0x0E]
    t.reg 0 = 1 ∧ t.flags.toBits = 3 := by decide +kernel

/-- 2.4: DIV r0.8 of 0xFF and 0x10; MORE. -/
theorem test_div8 :
    let t := run1 (start [(1, 0xFF), (2, 0x10)]) [0x01, 0x04, 0x04, 0x09, 0x0E]
    t.reg 0 = 0x0F ∧ t.flags.toBits = 9 := by decide +kernel

/-- P5: DIV by zero is skipped, with its report; the flags stay. -/
theorem test_div_by_zero :
    let t := run1 (start [(1, 7)] [] ⟨true, false, true, false⟩) [0x01, 0x04, 0x02, 0x07, 0x0C]
    t.reg 0 = 0 ∧ t.flags.toBits = 5 ∧ t.pc = 0x405 ∧ t.reports = [⟨.divideByZero, 0x400, some (0x01, 0x04)⟩] := by
  decide +kernel

/-- 1.8: IDIV r0.16 of -10 by 3 is -3; MORE, the comparison being unsigned. -/
theorem test_idiv16 :
    let t := run1 (start [(1, 0xFFF6), (2, 3)]) [0x01, 0x05, 0x03, 0x08, 0x0D]
    t.reg 0 = 0xFFFD ∧ t.flags.toBits = 9 := by decide +kernel

/-- 2.4: IDIV r0.8 of -128 by -1 is -128; LESS. -/
theorem test_idiv8_minimum :
    let t := run1 (start [(1, 0x80), (2, 0xFF)]) [0x01, 0x05, 0x04, 0x09, 0x0E]
    t.reg 0 = 0x80 ∧ t.flags.toBits = 5 := by decide +kernel

/-! ### Stack -/

/-- 2.5: PUSH sp.64 pushes the SP before. -/
theorem test_push_sp :
    let t := run1 (start []) [0x02, 0x00, 0xF1]
    t.addr 48 = 0x3F8 ∧ t.mem.readBytes 0x3F8 8 = [0x00, 0x04, 0, 0, 0, 0, 0, 0] := by decide +kernel

/-- 2.5: POP sp.64 leaves the popped value. -/
theorem test_pop_sp64 :
    (run1 (start [(48, 0x3F8)] [(0x3F8, [0x34, 0x12])]) [0x02, 0x01, 0xF1]).addr 48 = 0x1234 := by decide +kernel

/-- 2.5: POP sp.8 replaces the low byte of the SP already moved. -/
theorem test_pop_sp8 : (run1 (start [(48, 0x3FF)] [(0x3FF, [0x80])]) [0x02, 0x01, 0xF4]).addr 48 = 0x480 := by
  decide +kernel

/-- 2.5: PUSHI128 1. -/
theorem test_pushi128 :
    let t := run1 (start []) [0x02, 0x02, 0x00, 0x01]
    t.addr 48 = 0x3F0 ∧ t.mem.readBytes 0x3F0 2 = [1, 0] ∧ t.pc = 0x413 := by decide +kernel

/-- 2.5: PUSHI64 0x500. -/
theorem test_pushi64 :
    let t := run1 (start []) [0x02, 0x03, 0x00, 0x00, 0x05]
    t.addr 48 = 0x3F8 ∧ t.mem.readBytes 0x3F8 2 = [0x00, 0x05] ∧ t.pc = 0x40B := by decide +kernel

/-- 2.5: PUSHI32 0xCAFEBABE. -/
theorem test_pushi32 :
    let t := run1 (start []) [0x02, 0x04, 0x00, 0xBE, 0xBA, 0xFE, 0xCA]
    t.addr 48 = 0x3FC ∧ t.mem.readBytes 0x3FC 4 = [0xBE, 0xBA, 0xFE, 0xCA] := by decide +kernel

/-- R106: two bytes pushed, little-endian. -/
theorem test_pushi16 :
    let t := run1 (start []) [0x02, 0x05, 0x00, 0x34, 0x12]
    t.addr 48 = 0x3FE ∧ t.mem.readBytes 0x3FE 2 = [0x34, 0x12] := by decide +kernel

/-- R107: one byte pushed. -/
theorem test_pushi8 :
    let t := run1 (start []) [0x02, 0x06, 0x00, 0x7F]
    t.addr 48 = 0x3FF ∧ t.mem.read 0x3FF = 0x7F := by decide +kernel

/-! ### Control -/

/-- 2.6: JE with EQUALS set. -/
theorem test_je : (run1 (start [] [] ⟨true, true, false, false⟩) [0x03, 0x00, 0x00, 0x00, 0x05]).pc = 0x500 := by
  decide +kernel

/-- R111: JNE with EQUALS set falls through. -/
theorem test_jne : (run1 (start [] [] ⟨true, true, false, false⟩) [0x03, 0x01, 0x00, 0x00, 0x05]).pc = 0x40B := by
  decide +kernel

/-- R112: JL with LESS set. -/
theorem test_jl : (run1 (start [] [] ⟨true, false, true, false⟩) [0x03, 0x02, 0x00, 0x00, 0x05]).pc = 0x500 := by
  decide +kernel

/-- 2.6: JB with LESS set falls through. -/
theorem test_jb : (run1 (start [] [] ⟨true, false, true, false⟩) [0x03, 0x03, 0x00, 0x00, 0x05]).pc = 0x40B := by
  decide +kernel

/-- 2.6: JLE in the reset state falls through. -/
theorem test_jle : (run1 (start []) [0x03, 0x04, 0x00, 0x00, 0x05]).pc = 0x40B := by decide +kernel

/-- 2.6: JBE in the reset state jumps; with MORE set it falls through. -/
theorem test_jbe :
    (run1 (start []) [0x03, 0x05, 0x00, 0x00, 0x05]).pc = 0x500 ∧
    (run1 (start [] [] ⟨true, false, false, true⟩) [0x03, 0x05, 0x00, 0x00, 0x05]).pc = 0x40B := by decide +kernel

/-- 2.6: CALL 0x430 at 0x40B. -/
theorem test_call :
    let t := run1 (start [(47, 0x40B)]) [0x03, 0x06, 0x00, 0x30, 0x04]
    t.addr 48 = 0x3F8 ∧ t.mem.readBytes 0x3F8 2 = [0x16, 0x04] ∧ t.pc = 0x430 := by decide +kernel

/-- 2.6: CALL with SP = 4 faults with no push. -/
theorem test_call_fault :
    let t := run1 (start [(48, 4)]) [0x03, 0x06, 0x00, 0x30, 0x04]
    t.addr 48 = 4 ∧ t.pc = 0x40B ∧ t.reports.map (·.fault) = [.memory 0xFFFFFFFFFFFFFFFC] := by decide +kernel

/-- 2.6: CALLR r5.8 zero-extends; CALLR r5.128 keeps the low 64 bits. -/
theorem test_callr :
    (run1 (start [(5, 0x1FF)]) [0x03, 0x07, 0x1D]).pc = 0xFF ∧
    (run1 (start [(5, 0xAAAA0000000000000600)]) [0x03, 0x07, 0x19]).pc = 0x600 := by decide +kernel

/-- 2.6: RET after the CALL. -/
theorem test_ret :
    let t := run1 (start [(47, 0x430), (48, 0x3F8)] [(0x3F8, [0x16, 0x04])]) [0x03, 0x08, 0x00]
    t.pc = 0x416 ∧ t.addr 48 = 0x400 := by decide +kernel

/-- P4: INT 2 at 0x421. -/
theorem test_int :
    let t := run1 (start [(47, 0x421), (50, 0x3000)] [(0x3010, [0x00, 0x05])]) [0x03, 0x09, 0x00, 0x02]
    t.addr 48 = 0xD0 ∧ t.pc = 0x500 ∧ t.mem.readBytes 0x100 2 = [0x25, 0x04] ∧ t.mem.readBytes 0xF0 2 = [0x00, 0x01] ∧
    t.mem.readBytes 0xD0 2 = [0x00, 0x30] := by decide +kernel

/-- 2.6: the pushes overwrite vector 0 before it is read. -/
theorem test_int_self_vector :
    (run1 (start [(0, 0x777), (50, 0x3F0)] [(0x3F0, [0x99, 0x09])]) [0x03, 0x09, 0x00, 0x00]).pc = 0x777 := by
  decide +kernel

/-- P4: IRET from the frame of INT 2, with SP at 0xD0. -/
theorem test_iret :
    let t := run1 (start [(47, 0x500), (48, 0xD0)]
      [(0xD0, [0x00, 0x30]), (0xF0, [0x00, 0x01]), (0x100, [0x25, 0x04]), (0x3E0, [0x00, 0x05])]) [0x03, 0x0A, 0x00]
    t.addr 48 = 0x400 ∧ t.pc = 0x425 ∧ t.reg 1 = 0x500 ∧ t.reg 50 = 0x3000 := by decide +kernel

/-! ### Halt and step -/

/-- 2.7: HLT keeps the comparison flags; the next step does nothing. -/
theorem test_hlt :
    let t := run1 (start [] [] ⟨true, false, true, false⟩) [0xFF, 0x00, 0x00]
    t.flags.toBits = 4 ∧ t.pc = 0x403 ∧ step t = .next t := ⟨by decide +kernel, by decide +kernel, rfl⟩

/-- 2.7: the header at 0xFFFE runs past the end. -/
theorem test_header_fetch_fault :
    let t := run1 (start [(47, 0xFFFE)]) []
    t.pc = 0x10001 ∧ t.reports = [⟨.memory 0xFFFE, 0xFFFE, none⟩] := by decide +kernel

/-- 2.7: the immediate of MOVI r0.64 at 0xFFF8 runs past the end. -/
theorem test_trailing_fetch_fault :
    let t := run1 (start [(47, 0xFFF8)]) [0x00, 0x01, 0x01]
    t.pc = 0x10003 ∧ t.reports = [⟨.memory 0xFFFB, 0xFFF8, some (0x00, 0x01)⟩] := by decide +kernel

/-- 2.2: an unknown variant consumes the header alone. -/
theorem test_unknown_variant :
    let t := run1 (start []) [0x00, 0x06, 0x00]
    t.pc = 0x403 ∧ t.reports = [⟨.unknownEncoding, 0x400, some (0x00, 0x06)⟩] := by decide +kernel

/-- R148: after MOVI lo.64, 0x100 the fetch reads at 0x50B. -/
theorem test_relocation :
    let t := run1 (start []) [0x00, 0x01, 0xF6, 0x00, 0x01]
    t.pc = 0x40B ∧ t.localEA t.pc = 0x50B := by decide +kernel

/-- 2.7: with `FAULT_HALTS` a fault also clears RUNNING. -/
theorem test_fault_halts :
    let s := start [(1, 7)]
    let t := run1 { s with params := { s.params with faultHalts := true } } [0x01, 0x04, 0x02, 0x07, 0x0C]
    t.flags.toBits = 0 ∧ t.pc = 0x405 := by decide +kernel

/-- `withFetchWord` on the reset state: the next step runs the INT (opcode table word 0x0309) and the HLT (0xFF00). -/
theorem test_withFetchWord :
    (match step (State.reset.withFetchWord 16 0x0309) with | .next t => t.addr 48 | _ => 0) = 0xD0 ∧
    (match step (State.reset.withFetchWord 16 0xFF00) with | .next t => t.flags.toBits | _ => 9) = 0 := by decide +kernel

/-- Two cores: core 1's store is what core 0 then loads (R43). -/
theorem test_two_cores :
    let m : Multi := { cores := [(start [(47, 0x100)]).ctx, (start [(47, 0x200), (0, 0x5A)]).ctx]
                       mem := ((Memory.mk []).writeBytes 0x100 [0x00, 0x04, 0x04, 0x00, 0x30]).writeBytes 0x200
                         [0x00, 0x05, 0x04, 0x00, 0x30]
                       params := Params.standard }
    (match m.run [1, 0] with | .next m' => (m'.cores[0]?.map fun c => c.regs.headD 0) | _ => none) = some 0x5A := by
  decide +kernel

/-- R8, D3: with 5 registers, id 24 is the last valid one; INT pushes 5 words of 16 bytes (R122). -/
theorem test_five_registers :
    let s := State.boot { Params.standard with nreg := 5 }
    let run (bs : List Byte) := run1 s bs
    (run [0x00, 0x01, 0x18, 0x7F]).reg 4 = 0x7F ∧ faults (run [0x00, 0x01, 0x19]) = [(1, 0x400)] ∧
    (run [0x03, 0x09, 0x00, 0x00]).addr 2 = 0x3B0 ∧ (run [0x03, 0x09, 0x00, 0x00]).mem.readBytes 0x3E0 2 = [0x04, 0x04] := by
  decide +kernel

/-- R139, D25: a core given no Register File starts with the values of R29; one given a file starts with it. -/
theorem test_launch :
    (Multi.launch Params.standard [0xFF] [none, some (List.replicate 51 7)]).map
        (fun m => m.cores.map fun x => ((m.view x).pc, (m.view x).reg 0, (m.view x).mem.read 0x400)) =
      some [(0x400, 0, 0xFF), (7, 7, 0xFF)] ∧
    (Multi.launchDefault Params.standard [] 3).map (fun m => m.cores.length) = some 3 ∧
    Multi.launch Params.standard [] [some [1, 2]] = none := by decide +kernel

/-! ### Witnesses: a concrete state and operands meeting the hypotheses of each statement -/

/-- Every state of the tests has a sound Register File, of 51 registers. -/
theorem start_regsSound (regs : List (Nat × Word)) (cells : List (Nat × List Byte)) (flags : Flags) :
    (start regs cells flags).regsSound = true ∧ (start regs cells flags).params = Params.standard := by
  have step : ∀ (l : List (Nat × Word)) (s : State), s.regsSound = true ∧ s.params = Params.standard →
      (l.foldl (fun s r => s.setReg r.1 r.2) s).regsSound = true ∧
      (l.foldl (fun s r => s.setReg r.1 r.2) s).params = Params.standard := by
    intro l
    induction l with
    | nil => exact fun _ h => h
    | cons r l ih => exact fun s h => ih _ ⟨(setReg_regsSound ..).trans h.1, h.2⟩
  have fill : ∀ (l : List (Nat × List Byte)) (s : State), s.regsSound = true ∧ s.params = Params.standard →
      (l.foldl (fun s c => { s with mem := s.mem.writeBytes c.1 c.2 }) s).regsSound = true ∧
      (l.foldl (fun s c => { s with mem := s.mem.writeBytes c.1 c.2 }) s).params = Params.standard := by
    intro l
    induction l with
    | nil => exact fun _ h => h
    | cons c l ih => exact fun s h => ih _ h
  exact step regs _ (fill cells _ ⟨by decide, rfl⟩)

/-- A register inside the Register File: the last one. -/
theorem witness_ViewsReadAndWriteLowBits : (⟨50, .w8⟩ : View).reg < State.reset.regs.length := by decide

/-- Valid ids at both ends of the range. -/
theorem witness_RegisterIdDecomposition :
    viewOf 5 24 = some ⟨4, .w8⟩ ∧ viewOf 5 25 = none ∧ viewOf 52 255 = some ⟨51, .w128⟩ ∧
    viewOf 51 0 = some ⟨0, .w128⟩ ∧ viewOf 51 254 = some ⟨50, .w8⟩ ∧ viewOf 51 255 = none := by decide

/-- The largest immediate that fits each end of the widths; IDIV where enabled; another instruction where it is not. -/
theorem witness_DecodeOfEncode :
    (Instr.movi 4 0xFF).immFits = true ∧ (Instr.movi 0 (BitVec.allOnes 128)).immFits = true ∧
    (Instr.idiv 3 8 13).immFits = true ∧ Instr.mov 2 7 ≠ .idiv 3 8 13 := by decide

/-- An instruction with bytes after it. -/
theorem witness_EncodeOfDecode : decode true [0x03, 0x08, 0x55, 0xAA] = .ok (.ret 0x55, [0xAA]) := rfl

/-- For MemReadIsLittleEndian and MemWriteIsLittleEndian: an access that ends at `MEMSIZE` and one that ends a byte past
it, in well-formed memory. -/
theorem witness_MemAccess :
    State.reset.mem.wf = true ∧ State.reset.inBounds 0xFFFC 4 ∧ ¬ State.reset.inBounds 0xFFFD 4 := by decide +kernel

/-- A store that answers, in well-formed memory. -/
theorem witness_StoreThenLoadReturnsValue :
    State.reset.mem.wf = true ∧ ∃ t, State.reset.memWrite 0xFFFC 4 0x11223344 = .ok t := ⟨rfl, _, rfl⟩

/-- Ids of one width, an invalid id in each place, and valid ids of different widths. -/
theorem witness_MovCopiesView :
    State.reset.regsSound = true ∧ viewOf 51 2 = some ⟨0, .w32⟩ ∧ viewOf 51 7 = some ⟨1, .w32⟩ ∧
    (Instr.mov 255 7).operandIds.find? (fun x => (viewOf 51 x).isNone) = some 255 ∧
    (Instr.mov 2 255).operandIds.find? (fun x => (viewOf 51 x).isNone) = some 255 ∧
    (Instr.mov 2 6).idsValid 51 = true ∧ (Instr.mov 2 6).widthsAgree = false := by decide

/-- A valid destination with the largest immediate of its view, and an invalid one. -/
theorem witness_MoviLoadsImmediate :
    State.reset.regsSound = true ∧ viewOf 51 3 = some ⟨0, .w16⟩ ∧ (Instr.movi 3 0xFFFF).immFits = true ∧
    (Instr.movi 255 0).operandIds.find? (fun x => (viewOf 51 x).isNone) = some 255 := by decide

/-- LDL and LDG at the last address where 4 bytes fit and at the first where they do not; the LDL with a nonzero LO. -/
theorem witness_LoadsReadMemory :
    let s := start [(49, 0x10)]
    s.regsSound = true ∧ viewOf 51 2 = some ⟨0, .w32⟩ ∧ (0xFFFC : Addr) = 0xFFEC + s.addr 49 ∧
    (0xFFFC : Addr).toNat + 4 ≤ s.params.memSize ∧
    ¬ ((0xFFFD : Addr).toNat + 4 ≤ s.params.memSize) ∧
    (Instr.ldl 255 0).operandIds.find? (fun x => (viewOf 51 x).isNone) = some 255 := by decide +kernel

/-- STL and STG likewise, in well-formed memory. -/
theorem witness_StoresWriteMemory :
    let s := start [(49, 0x10), (0, 0x1234)] [(0x2000, [1, 2])]
    s.mem.wf = true ∧ viewOf 51 2 = some ⟨0, .w32⟩ ∧ (0xFFFC : Addr) = 0xFFEC + s.addr 49 ∧
    (0xFFFC : Addr).toNat + 4 ≤ s.params.memSize ∧ ¬ ((0xFFFD : Addr).toNat + 4 ≤ s.params.memSize) ∧
    (Instr.stg 255 0).operandIds.find? (fun x => (viewOf 51 x).isNone) = some 255 := by decide +kernel

/-- For SumWraps, SubWraps, MulKeepsLowHalf, DivTruncates and IdivTruncatesTowardZero: a triple of one width; a divisor of
0 and of 1; an invalid id in the last place; a width mismatch. -/
theorem witness_Arithmetic :
    (start [(2, 0x100)]).regsSound = true ∧ (start [(2, 0x101)]).regsSound = true ∧
    viewOf 51 4 = some ⟨0, .w8⟩ ∧ viewOf 51 9 = some ⟨1, .w8⟩ ∧ viewOf 51 14 = some ⟨2, .w8⟩ ∧
    ((start [(2, 0x100)]).readReg 2 .w8).toNat = 0 ∧ ((start [(2, 0x101)]).readReg 2 .w8).toNat = 1 ∧
    (Instr.div 4 9 255).operandIds.find? (fun x => (viewOf 51 x).isNone) = some 255 ∧
    (Instr.idiv 4 9 13).idsValid 51 = true ∧ (Instr.idiv 4 9 13).widthsAgree = false := by decide +kernel

/-- Operands of CMP of one width, and of different widths. -/
theorem witness_CmpSetsFlagsOnly :
    viewOf 51 7 = some ⟨1, .w32⟩ ∧ viewOf 51 12 = some ⟨2, .w32⟩ ∧ (Instr.cmp 7 11).idsValid 51 = true ∧
    (Instr.cmp 7 11).widthsAgree = false := by decide

/-- An arithmetic instruction that answers without a report, from a state with another flag set. -/
theorem witness_AluLeavesExactlyOneFlag :
    let s := start [(1, 3), (2, 5)] [] ⟨true, false, false, true⟩
    (Instr.sub 4 9 14).fam = 0x01 ∧ exec (.sub 4 9 14) s = .next (after (.sub 4 9 14) s) ∧
    (after (.sub 4 9 14) s).reports = s.reports := ⟨rfl, rfl, rfl⟩

/-- A push slot that ends at `MEMSIZE`, one that ends a byte past it, and one below address 0. -/
theorem witness_PushStoresView :
    State.reset.regsSound = true ∧ State.reset.mem.wf = true ∧ viewOf 51 6 = some ⟨1, .w64⟩ ∧
    (pushSlot (start [(48, 0x10000)]) 8).toNat + 8 ≤ (start []).params.memSize ∧
    ¬ ((pushSlot (start [(48, 0x10001)]) 8).toNat + 8 ≤ (start []).params.memSize) ∧
    ¬ ((pushSlot (start [(48, 7)]) 8).toNat + 8 ≤ (start []).params.memSize) := by decide +kernel

/-- For PopLoadsView and RetPopsPc: a slot that ends at `MEMSIZE` and one that ends a byte past it. -/
theorem witness_PopLoadsView :
    (start [(48, 0xFFF8)]).regsSound = true ∧ viewOf 51 11 = some ⟨2, .w64⟩ ∧
    (popSlot (start [(48, 0xFFF8)])).toNat + 8 ≤ (start []).params.memSize ∧
    ¬ ((popSlot (start [(48, 0xFFF9)])).toNat + 8 ≤ (start []).params.memSize) := by decide +kernel

/-- Each of the five immediates, with a slot in bounds and one out of bounds. -/
theorem witness_PushImmediates :
    (∃ _ : 16 = 16, Instr.pushi128 0 5 = .pushi128 0 ((5 : BitVec (8 * 16)).cast (by omega))) ∧
    (∃ _ : 8 = 8, Instr.pushi64 0 5 = .pushi64 0 ((5 : BitVec (8 * 8)).cast (by omega))) ∧
    (∃ _ : 4 = 4, Instr.pushi32 0 5 = .pushi32 0 ((5 : BitVec (8 * 4)).cast (by omega))) ∧
    (∃ _ : 2 = 2, Instr.pushi16 0 5 = .pushi16 0 ((5 : BitVec (8 * 2)).cast (by omega))) ∧
    (∃ _ : 1 = 1, Instr.pushi8 0 5 = .pushi8 0 ((5 : BitVec (8 * 1)).cast (by omega))) ∧
    State.reset.regsSound = true ∧ State.reset.mem.wf = true ∧
    (pushSlot (start [(48, 16)]) 16).toNat + 16 ≤ (start []).params.memSize ∧
    ¬ ((pushSlot (start [(48, 15)]) 16).toNat + 16 ≤ (start []).params.memSize) :=
  ⟨⟨rfl, rfl⟩, ⟨rfl, rfl⟩, ⟨rfl, rfl⟩, ⟨rfl, rfl⟩, ⟨rfl, rfl⟩, by decide +kernel⟩

/-- Views of one width, the destination not in SP, a slot in bounds. -/
theorem witness_PushThenPopRestores :
    State.reset.regsSound = true ∧ State.reset.mem.wf = true ∧ viewOf 51 6 = some ⟨1, .w64⟩ ∧
    viewOf 51 11 = some ⟨2, .w64⟩ ∧ (2 : Nat) ≠ State.reset.params.spIdx ∧
    (pushSlot State.reset 8).toNat + 8 ≤ State.reset.params.memSize := by decide +kernel

/-- A state in which each condition holds and one in which it fails. -/
theorem witness_ConditionalJumps :
    let e : Flags := ⟨true, true, false, false⟩
    let l : Flags := ⟨true, false, true, false⟩
    let m : Flags := ⟨true, false, false, true⟩
    (start [] [] e).regsSound = true ∧
    (e.equals = true ∧ l.equals = false) ∧ (l.less = true ∧ m.less = false) ∧ (m.more = true ∧ l.more = false) ∧
    (Instr.jbe 0 0x500 = .jbe 0 0x500 ∧ (Instr.jbe 0 0x500).var = 0x05) := by decide

/-- For CallPushesReturnAddress and CallrCallsRegister: a return slot in bounds and one below address 0; a valid CALLR
operand. -/
theorem witness_CallPushesReturnAddress :
    State.reset.regsSound = true ∧ State.reset.mem.wf = true ∧
    (pushSlot (start [(48, 8)]) 8).toNat + 8 ≤ (start []).params.memSize ∧
    ¬ ((pushSlot (start [(48, 7)]) 8).toNat + 8 ≤ (start []).params.memSize) ∧ viewOf 51 29 = some ⟨5, .w8⟩ := by
  decide +kernel

/-- The state a CALL leaves itself meets what is asked of the state before the RET. -/
theorem witness_CallThenRetReturns :
    let s := start [(47, 0x416)]
    let t := after (.call 0 0x430) s
    s.regsSound = true ∧ s.mem.wf = true ∧ (pushSlot s 8).toNat + 8 ≤ s.params.memSize ∧
    t.regsSound = true ∧ t.addr 48 = 0x3F8 ∧ t.addr 49 = 0 ∧ t.params = s.params := by decide +kernel

/-- A frame that starts at address 0 and a vector entry that ends at `MEMSIZE`. -/
theorem witness_IntSavesRegisterFile :
    let s := start [(48, 816), (50, 0xFFF8)]
    s.regsSound = true ∧ s.mem.wf = true ∧ 16 * s.params.nreg ≤ 2 ^ 64 ∧
    (∀ i, i < s.params.nreg → s.inBounds (frameSlot s i) 16) ∧ s.inBounds (s.localEA (s.vectorAddr 0)) 8 := by decide +kernel

/-- SP one byte too low for the last push; and a vector entry one byte past the end. -/
theorem witness_IntFaultsWhole :
    (let s := start [(48, 815)]
     s.regsSound = true ∧ ¬ s.inBounds (frameSlot s 50) 16 ∧ ∀ j, j < 50 → s.inBounds (frameSlot s j) 16) ∧
    (let s := start [(48, 816), (50, 0xFFF9)]
     s.regsSound = true ∧ (∀ i, i < s.params.nreg → s.inBounds (frameSlot s i) 16) ∧ 
     ¬ s.inBounds (s.localEA (s.vectorAddr 0)) 8) := by decide +kernel

/-- A frame at 0xD0 whose saved SP is 0x100, and one whose saved SP puts the 48 words after it up to `MEMSIZE`. -/
theorem witness_IretRestoresRegisterFile :
    (let s := start [(48, 0xD0)] [(0xF0, [0x00, 0x01])]
     s.regsSound = true ∧ ∀ i, i < s.params.nreg → s.inBounds (iretSlot s i) 16) ∧
    (let s := start [(48, 0xD0)] [(0xF0, [0x00, 0xFD])]
     s.regsSound = true ∧ ∀ i, i < s.params.nreg → s.inBounds (iretSlot s i) 16) := by decide +kernel

/-- A saved SP one byte too high for the last pop. -/
theorem witness_IretFaultsWhole :
    let s := start [(48, 0xD0)] [(0xF0, [0x01, 0xFD])]
    s.regsSound = true ∧ ¬ s.inBounds (iretSlot s 0) 16 ∧
    ∀ j, j < s.params.nreg → 0 < j → s.inBounds (iretSlot s j) 16 := by decide +kernel

/-- The state an INT leaves itself meets what is asked of the state before the IRET. -/
theorem witness_IntThenIretRestoresAll :
    let s := start [(47, 0x425), (50, 0x3000)]
    let t := after (.int 0 2) s
    s.regsSound = true ∧ s.mem.wf = true ∧ 16 * s.params.nreg ≤ 2 ^ 64 ∧
    (∀ i, i < s.params.nreg → s.inBounds (frameSlot s i) 16) ∧ s.inBounds (s.localEA (s.vectorAddr 2)) 8 ∧
    t.regsSound = true ∧ t.addr 48 = 0xD0 ∧ t.addr 49 = s.addr 49 ∧ t.params = s.params := by decide +kernel

/-- A 5-byte instruction that ends at `MEMSIZE`. -/
theorem witness_StepRunsDecodedInstruction :
    let s := start [(47, 0xFFFB)] [(0xFFFB, [0x01, 0x00, 0x02, 0x07, 0x0C])]
    s.flags.running = true ∧ s.fetchBytes (s.localEA s.pc) 3 = .ok [0x01, 0x00, 0x02] ∧
    s.fetchBytes (s.localEA (s.pc + 3)) 2 = .ok [0x07, 0x0C] ∧
    decode true ([0x01, 0x00, 0x02] ++ [0x07, 0x0C]) = .ok (.sum 2 7 12, []) := ⟨rfl, rfl, rfl, rfl⟩

/-- A halted core. -/
theorem witness_HaltedIsTerminal : (start [] [] ⟨false, true, false, false⟩).flags.running = false := rfl

/-- A header that runs past the end; an unknown header; a known one whose trailing field runs a byte past the end. -/
theorem witness_FetchFaults :
    (let s := start [(47, 0xFFFE)]
     s.flags.running = true ∧ ¬ s.inBounds (s.localEA s.pc) 3) ∧
    (let s := start [(47, 0xFFFD)] [(0xFFFD, [0x00, 0x06])]
     s.inBounds (s.localEA s.pc) 3 ∧ fetchedLength s = none) ∧
    (let s := start [(47, 0xFFFD)]
     fetchedLength s = some 1 ∧ ¬ s.inBounds (s.localEA (s.pc + 3)) 1) := by decide +kernel

/-- For FaultingStepUndoesEverything and StepReportsAtMostOneFault: a step that reports a fault. -/
theorem witness_FaultingStepUndoesEverything :
    let s := start [(47, 0xFFFE)]
    s.regsSound = true ∧ step s = .next (run1 s []) ∧ (run1 s []).reports ≠ s.reports := ⟨rfl, rfl, by decide +kernel⟩

/-- For StepKeepsInvariant and StepReportsAtMostOneFault: a step that reports none, with memory in use. -/
theorem witness_StepKeepsInvariant :
    let s := start [(1, 7)] [(0x400, [0x02, 0x00, 0x06])]
    s.regsSound = true ∧ s.memSound = true ∧ s.flags.atMostOne = true ∧
    step s = .next (run1 s []) ∧ (run1 s []).reports = s.reports :=
  ⟨rfl, by decide +kernel, rfl, rfl, rfl⟩

/-- An instruction that answers with an IllegalInstructionFault, and one that answers without. -/
theorem witness_IllegalInstructionExactly :
    exec (.push 255) State.reset = .next (after (.push 255) State.reset) ∧ (Instr.push 255).idsValid 51 = false ∧
    exec (.push 6) State.reset = .next (after (.push 6) State.reset) ∧ (Instr.push 6).idsValid 51 = true :=
  ⟨rfl, by decide, rfl, by decide⟩

/-- An instruction outside family 0x01, a running core before and a halted one after. -/
theorem witness_FlagWriters :
    exec (.hlt 0 0) State.reset = .next (after (.hlt 0 0) State.reset) ∧ (Instr.hlt 0 0).fam ≠ 0x01 ∧
    State.reset.flags.running = true ∧ (after (.hlt 0 0) State.reset).flags.running = false := ⟨rfl, by decide, rfl, rfl⟩

/-- States that differ in their reports alone, and their steps. -/
theorem witness_ReportsInfluenceNothing :
    let s := start [] [(0x400, [0x04])]
    let t := { s with reports := [⟨.divideByZero, 0x10, none⟩] }
    s.SameArch t ∧ s ≠ t ∧ step s = .next (run1 s []) ∧ step t = .next (run1 t []) :=
  ⟨⟨rfl, rfl, rfl, rfl⟩, by decide +kernel, rfl, rfl⟩

/-- An image that ends at `MEMSIZE`, and one that ends a byte past it. -/
theorem witness_InitialisationContract :
    let p : Params := { Params.standard with memSize := 1026 }
    5 ≤ p.nreg ∧ (State.init p [1, 2]).isSome = true ∧ State.init p [1, 2, 3] = none := by decide +kernel

/-- Two cores, the second of them stepped. -/
theorem witness_CoresShareOnlyMemory :
    ∃ x, ({ cores := [State.reset.ctx, (start [(47, 0x200)]).ctx], mem := ⟨[]⟩, params := Params.standard } : Multi).cores[1]? =
      some x := ⟨_, rfl⟩

/-- Parameters and a launch of two cores, one with the default and one with a Register File; and a file too short. -/
theorem witness_LaunchStartsEveryCore :
    5 ≤ Params.standard.nreg ∧ (Multi.launch Params.standard [0xFF] [none, some (List.replicate 51 7)]).isSome = true ∧
    (Multi.launch Params.standard [] [some (List.replicate 50 7)]) = none := by decide +kernel

/-- Two cores with the invariant. -/
theorem witness_SchedulesKeepInvariant :
    ({ cores := [State.reset.ctx, State.reset.ctx], mem := ⟨[(3, 1)]⟩, params := Params.standard } : Multi).Inv := by
  intro x hx
  simp only [List.mem_cons, List.not_mem_nil, or_false, or_self] at hx
  subst hx
  exact ⟨by decide, by decide, by decide⟩

end Sys2Proof.Tests
end

