-- ==== Sys2Proof/Proofs/RegisterViews.lean ====
section
/-! Register ids and views: what an id byte names (10_state.md R10, R11, R16), and which bits of a register a view
reads and writes (R12, R13). -/

namespace Sys2Proof.RegisterViews

open Machine Laws

/-! ### What an id names -/

/-- An id names a register exactly where `id div 5` is a register's number, and then at the width of its code (R10, R11). -/
theorem viewOf_eq_some_iff {nreg : Nat} {id : RegId} {v : View} :
    viewOf nreg id = some v ↔ id.toNat / 5 < nreg ∧ ⟨id.toNat / 5, regWidth id⟩ = v := by
  simp [viewOf]

/-- An id is invalid exactly where `id div 5` is past the Register File (R11). -/
theorem viewOf_eq_none_iff {nreg : Nat} {id : RegId} : viewOf nreg id = none ↔ nreg ≤ id.toNat / 5 := by
  simp [viewOf]

/-- A byte is past the five ids of each of 51 registers only where it is 255: 51 * 5 = 255 (R11). -/
theorem le_div_five_iff_eq_255 (id : RegId) : 51 ≤ id.toNat / 5 ↔ id = 255 := by
  have id_lt : id.toNat < 256 := id.isLt
  rw [← BitVec.toNat_inj, show (255 : RegId).toNat = 255 from rfl]
  omega

/-- The width selected by an id has the code `id mod 5` (R10). -/
@[simp] theorem regWidth_code (id : RegId) : (regWidth id).code = id.toNat % 5 := by
  have codes : id.toNat % 5 = 0 ∨ id.toNat % 5 = 1 ∨ id.toNat % 5 = 2 ∨ id.toNat % 5 = 3 ∨ id.toNat % 5 = 4 := by omega
  rcases codes with h | h | h | h | h <;> simp [regWidth, h, Width.code]

/-- R10's table of widths, read by width code. -/
theorem bits_eq_getD_code (w : Width) : w.bits = [128, 64, 32, 16, 8].getD w.code 0 := by
  cases w <;> rfl

/-- The id of what an id names is that id: `5 * (id div 5) + id mod 5` (R16). -/
theorem idOf_eq_of_viewOf {nreg : Nat} {id : RegId} {v : View} (h : viewOf nreg id = some v) : idOf v = id := by
  obtain ⟨-, rfl⟩ := viewOf_eq_some_iff.mp h
  simp only [idOf, regWidth_code, Nat.div_add_mod, BitVec.ofNat_toNat, BitVec.setWidth_eq]

/-- Settles O1: each part is one of the facts above about the view an id names. -/
theorem registerIdDecomposition : Obligations.RegisterIdDecomposition := by
  intro nreg id
  refine ⟨viewOf_eq_none_iff, viewOf_eq_none_iff.trans (le_div_five_iff_eq_255 id), fun v h => ?_⟩
  obtain ⟨-, rfl⟩ := viewOf_eq_some_iff.mp h
  refine ⟨rfl, regWidth_code id, ?_, idOf_eq_of_viewOf h⟩
  rw [← regWidth_code id]
  exact bits_eq_getD_code _

/-! ### What a view reads and writes -/

/-- Bits read through a view: those of the register below the view's width (R12). -/
theorem readView_getLsbD (s : State) (v : View) (k : Nat) :
    (s.readView v).getLsbD k = (decide (k < v.width.bits) && (s.reg v.reg).getLsbD k) :=
  BitVec.getLsbD_setWidth ..

/-- A write through a view keeps the memory (R13). -/
theorem writeView_sameMem (s : State) (v : View) (x : BitVec v.width.bits) : SameMem s (s.writeView v x) :=
  fun _ => congrArg (Memory.read · _) (writeView_mem s v x)

/-- A write through a view keeps the parameters, the number of registers and the reports (R13). -/
theorem writeView_quiet (s : State) (v : View) (x : BitVec v.width.bits) : Quiet s (s.writeView v x) :=
  ⟨writeView_params s v x, writeView_length s v x, writeView_reports s v x⟩

/-- Settles O7: the bits read and written, then the frame of a write. -/
theorem viewsReadAndWriteLowBits : Obligations.ViewsReadAndWriteLowBits := fun s v x hv =>
  ⟨readView_getLsbD s v, fun j k => writeView_getLsbD s x j k hv, writeView_flags s v x, writeView_sameMem s v x,
    writeView_quiet s v x⟩

end Sys2Proof.RegisterViews
end

section
/-! Memory accesses: the bytes `MemRead` puts together (20_memory.md R36), the bytes `MemWrite` lays out and those it
leaves (R37), and the fault of either out of bounds (R35). -/

namespace Sys2Proof.MemoryAccess

open Machine Laws

/-! ### Reading -/

/-- Byte `k` of the value read is the byte at `k` past the address (R36). -/
theorem readValue_byte (m : Memory) {a n k : Nat} (hk : k < n) :
    (BitVec.ofNat (8 * n) (leNat (m.readBytes a n))).extractLsb' (8 * k) 8 = m.read (a + k) := by
  apply BitVec.eq_of_getLsbD_eq
  intro j hj
  have byte_of_bit : (8 * k + j) / 8 = k := by omega
  have bit_in_byte : (8 * k + j) % 8 = j := by omega
  rw [BitVec.getLsbD_extractLsb', readValue_getLsbD m a n _ (by omega), byte_of_bit, bit_in_byte]
  simp [hj]

/-- Settles O8: the bounds decide between the value and the fault, and `readValue_byte` gives the value's bytes. -/
theorem memReadIsLittleEndian : Obligations.MemReadIsLittleEndian := by
  intro s ea n
  split
  next inside => exact ⟨_, memRead_eq_ok.mpr ⟨inside, rfl⟩, fun k hk => readValue_byte s.mem hk⟩
  next outside => exact memRead_eq_error.mpr ⟨outside, rfl⟩

/-! ### Writing -/

section Written

variable {s t : State} {a n : Nat} {v : BitVec (8 * n)}

/-- A state whose memory is that of `s` with `v` written holds `v` there, little-endian (R37). -/
theorem memHolds_of_written (hw : s.mem.wf = true) (ht : t.mem = s.mem.writeBytes a (leBytes n v.toNat)) :
    MemHolds t a n v := by
  intro k hk
  rw [ht, read_writeValue hw, if_pos (by omega), Nat.add_sub_cancel_left]

/-- A state whose memory is that of `s` with `n` bytes written holds every other byte of `s` (R37). -/
theorem sameMemOutside_of_written (hw : s.mem.wf = true) (ht : t.mem = s.mem.writeBytes a (leBytes n v.toNat)) :
    SameMemOutside s t a n := by
  intro b hb
  rw [ht, read_writeValue hw, if_neg (by omega)]

end Written

/-- Settles O9: the bounds decide between the write and the fault; the write sets the memory alone, whose bytes inside
and outside the access are the two facts above. -/
theorem memWriteIsLittleEndian : Obligations.MemWriteIsLittleEndian := by
  intro s ea n v hw
  split
  next inside =>
    exact ⟨_, memWrite_eq_ok.mpr ⟨inside, rfl⟩, memHolds_of_written hw rfl, sameMemOutside_of_written hw rfl, rfl, rfl,
      rfl, rfl, rfl⟩
  next outside => exact memWrite_eq_error.mpr ⟨outside, rfl⟩

end Sys2Proof.MemoryAccess
end

section
/-! The encoding: the lengths the decoder reads off a header (30_encoding.md R62), and the bytes it fetches that no
instruction uses (R65). -/

namespace Sys2Proof.HeaderBytes

open Machine Laws RegisterViews

/-! ### The trailing length, family by family -/

/-- `nbytes(w)` of 00_scope.md, by width code: `16 >> w`. -/
theorem bytes_eq_shiftRight_code (w : Width) : w.bytes = 16 >>> w.code := by
  cases w <;> rfl

/-- A table row read where the variant is in its range, and `none` elsewhere, is the row read at any variant: past its
end a list gives `none`. -/
theorem ite_le_getElem? {row : List Nat} {var last : Byte} (hlen : row.length = last.toNat + 1) :
    (if var ≤ last then row[var.toNat]? else none) = row[var.toNat]? := by
  split
  next => rfl
  next outside =>
    rw [BitVec.le_def] at outside
    exact (List.getElem?_eq_none (by omega)).symm

/-- Family 0x00: data moves; MOVI's immediate is as wide as the view `g` selects (R56). -/
theorem decodeLength_dataMove (e : Bool) (var g : Byte) :
    decodeLength e 0x00 var g = [1, 16 >>> (g.toNat % 5), 8, 8, 8, 8][var.toNat]? := by
  rw [← regWidth_code, ← bytes_eq_shiftRight_code]
  unfold decodeLength decodeHeader
  match var.toNat with
  | 0 | 1 | 2 | 3 | 4 | 5 => rfl
  | _ + 6 => rfl

/-- Family 0x01 but for variant 0x05: arithmetic. -/
theorem decodeLength_arithmetic (e : Bool) {var : Byte} (g : Byte) (h : var ≠ 0x05) :
    decodeLength e 0x01 var g = [2, 2, 1, 2, 2][var.toNat]? := by
  have hne : var.toNat ≠ 5 := fun h5 => h (BitVec.eq_of_toNat_eq h5)
  unfold decodeLength decodeHeader
  match var.toNat, hne with
  | 0, _ | 1, _ | 2, _ | 3, _ | 4, _ => rfl
  | _ + 6, _ => rfl

/-- Family 0x01, variant 0x05: IDIV, where it is enabled (R97). -/
theorem decodeLength_idiv (e : Bool) (g : Byte) : decodeLength e 0x01 0x05 g = if e = true then some 2 else none := by
  cases e <;> rfl

/-- Family 0x02: the stack. -/
theorem decodeLength_stack (e : Bool) (var g : Byte) :
    decodeLength e 0x02 var g = [0, 0, 16, 8, 4, 2, 1][var.toNat]? := by
  unfold decodeLength decodeHeader
  match var.toNat with
  | 0 | 1 | 2 | 3 | 4 | 5 | 6 => rfl
  | _ + 7 => rfl

/-- Family 0x03: control. -/
theorem decodeLength_control (e : Bool) (var g : Byte) :
    decodeLength e 0x03 var g = [8, 8, 8, 8, 8, 8, 8, 0, 0, 1, 0][var.toNat]? := by
  unfold decodeLength decodeHeader
  match var.toNat with
  | 0 | 1 | 2 | 3 | 4 | 5 | 6 | 7 | 8 | 9 | 10 => rfl
  | _ + 11 => rfl

/-- Family 0xFF: HLT, whatever the variant. -/
theorem decodeLength_halt (e : Bool) (var g : Byte) : decodeLength e 0xFF var g = some 0 := by
  rfl

/-- A family byte that is none of the five has no row (R63). -/
theorem decodeLength_unknownFamily (e : Bool) {fam : Byte} (var g : Byte)
    (h0 : fam ≠ 0x00) (h1 : fam ≠ 0x01) (h2 : fam ≠ 0x02) (h3 : fam ≠ 0x03) (hF : fam ≠ 0xFF) :
    decodeLength e fam var g = none := by
  cases hrow : decodeHeader e fam var g with
  | none => rw [decodeLength, hrow]; rfl
  | some row =>
    obtain ⟨hfam, -⟩ := decodeHeader_build [] hrow
    cases hi : row.2 [] <;> simp_all [Instr.fam]

/-- Settles O2: in each family the pseudocode's range guards leave that family's row, in any other `none`. -/
theorem decodeLengthIsTheTable : Obligations.DecodeLengthIsTheTable := by
  intro e fam var g
  by_cases h0 : fam = 0x00
  · subst h0
    simpa using (decodeLength_dataMove e var g).trans (ite_le_getElem? (last := 0x05) rfl).symm
  by_cases h1 : fam = 0x01
  · subst h1
    by_cases h5 : var = 0x05
    · subst h5
      simpa using decodeLength_idiv e g
    · simpa [show var ≠ 5#8 from h5] using
        (decodeLength_arithmetic e g h5).trans (ite_le_getElem? (last := 0x04) rfl).symm
  by_cases h2 : fam = 0x02
  · subst h2
    simpa using (decodeLength_stack e var g).trans (ite_le_getElem? (last := 0x06) rfl).symm
  by_cases h3 : fam = 0x03
  · subst h3
    simpa using (decodeLength_control e var g).trans (ite_le_getElem? (last := 0x0A) rfl).symm
  by_cases hF : fam = 0xFF
  · subst hF
    exact decodeLength_halt e var g
  · rw [decodeLength_unknownFamily e var g h0 h1 h2 h3 hF]
    simp only [h0, h1, h2, h3, hF, false_and, if_false]

/-! ### Bytes fetched and ignored -/

/-- Of the instruction it ends, `finish` sees the length, the family byte and the variant byte alone: a fault's report is
made from these (R130). -/
theorem finish_congr {i j : Instr} {s : State} {r : Except Fault State} (hlength : i.length = j.length)
    (hfam : i.fam = j.fam) (hvar : i.var = j.var) : finish i s r = finish j s r := by
  cases r with
  | ok t => rfl
  | error f => simp only [finish, faultOf, hlength, hfam, hvar]

/-- An instruction whose effect raises no fault ends in that effect, whatever its bytes. -/
theorem finish_ok (i j : Instr) (s t : State) : finish i s (.ok t) = finish j s (.ok t) := rfl

/-- Settles O6: the ignored byte reaches a meaning only through the instruction `finish` is given. Where the meaning can
fault, `finish` does not see that byte; a jump and HLT, whose variant byte a report would show, cannot fault. -/
theorem ignoredBytesHaveNoEffect : Obligations.IgnoredBytesHaveNoEffect := by
  intro g g' var var' s
  refine ⟨?pushi128, ?pushi64, ?pushi32, ?pushi16, ?pushi8, ?je, ?jne, ?jl, ?jb, ?jle, ?jbe, ?call, ?ret, ?int, ?iret,
    ?hlt⟩
  case je => exact fun a => finish_ok (.je g a) (.je g' a) s _
  case jne => exact fun a => finish_ok (.jne g a) (.jne g' a) s _
  case jl => exact fun a => finish_ok (.jl g a) (.jl g' a) s _
  case jb => exact fun a => finish_ok (.jb g a) (.jb g' a) s _
  case jle => exact fun a => finish_ok (.jle g a) (.jle g' a) s _
  case jbe => exact fun a => finish_ok (.jbe g a) (.jbe g' a) s _
  case hlt => exact finish_ok (.hlt var g) (.hlt var' g') s _
  case ret | iret => exact finish_congr rfl rfl rfl
  all_goals exact fun _ => finish_congr rfl rfl rfl

end Sys2Proof.HeaderBytes
end

section
/-! The step: each way its fetch can end (40_step.md R67, R68, R72), the halted core (R67), and what any fault leaves of the
step that reports it (R71). -/

namespace Sys2Proof.StepFaults

open Machine Laws

variable {s t : State}

/-! ### A halted core -/

/-- A step of a halted core changes nothing (R67). -/
theorem step_of_halted (halted : s.flags.running = false) : step s = .next s := by
  simp [step, State.fetch, halted]

/-- A halted core calls no trace hook (R67). -/
theorem traceHook_of_halted (halted : s.flags.running = false) : s.traceHook = none := by
  simp [State.traceHook, halted]

/-- A run goes on from the state its first step leaves (R67). -/
theorem run_succ_of_step (next : step s = .next t) (k : Nat) : core.run (k + 1) s = core.run k t := by
  have first : core.step s = .next t := next
  simp only [Host.Core.run, first]

/-- No number of steps of a halted core changes anything (R67). -/
theorem run_of_halted (halted : s.flags.running = false) (k : Nat) : core.run k s = .next s := by
  induction k with
  | zero => rfl
  | succ k ih => exact (run_succ_of_step (step_of_halted halted) k).trans ih

/-- Settles O38: by induction on the number of steps, each of which fetches nothing. -/
theorem haltedIsTerminal : Obligations.HaltedIsTerminal := fun _ k halted =>
  ⟨run_of_halted halted k, traceHook_of_halted halted⟩

/-! ### A running core: the step, by how its fetch ends -/

/-- The row of the opcode map for the header at the program counter: the trailing length and the instruction (R61, R62). -/
def headerRow (s : State) : Option (Nat × (List Byte → Instr)) :=
  decodeHeader s.params.idivEnabled (fetchedByte s 0) (fetchedByte s 1) (fetchedByte s 2)

/-- The trailing length at the program counter is the one its row gives (R62). -/
theorem fetchedLength_eq (s : State) : fetchedLength s = (headerRow s).map Prod.fst := rfl

/-- The trailing field of `l` bytes at the program counter: its bytes, from three past the header's first (R68). -/
def trailingBytes (s : State) (l : Nat) : List Byte := s.mem.readBytes (s.localEA (s.pc + 3)).toNat l

/-- The header fetch in bounds gives the three bytes at the program counter (R68). -/
theorem fetchBytes_header (inside : s.inBounds (s.localEA s.pc) 3) :
    s.fetchBytes (s.localEA s.pc) 3 = .ok [fetchedByte s 0, fetchedByte s 1, fetchedByte s 2] :=
  fetchBytes_eq_ok.mpr ⟨.inr inside, rfl⟩

/-- The PC past a header and `l` trailing bytes, moved in one go (R69, R72). -/
theorem pc_past (pc : Addr) (l : Nat) : pc + 3 + BitVec.ofNat 64 l = pc + BitVec.ofNat 64 (3 + l) := by
  rw [BitVec.add_assoc, BitVec.ofNat_add]
  rfl

/-- A header out of bounds: MemoryFault, 3 bytes consumed (R72). -/
theorem step_of_header_outside (running : s.flags.running = true) (outside : ¬ s.inBounds (s.localEA s.pc) 3) :
    step s = .next (fetchFaulted s 3 (.memory (s.localEA s.pc)) none) := by
  have header : s.fetchBytes (s.localEA s.pc) 3 = .error (.memory (s.localEA s.pc)) :=
    fetchBytes_eq_error.mpr ⟨by simp [outside], rfl⟩
  simp only [step, State.fetch, running, header, if_true]
  rfl

/-- A header without a row: IllegalInstructionFault, 3 bytes consumed (R63, R72). -/
theorem step_of_unknown_header (running : s.flags.running = true) (inside : s.inBounds (s.localEA s.pc) 3)
    (unknown : headerRow s = none) :
    step s = .next (fetchFaulted s 3 .unknownEncoding (some (fetchedByte s 0, fetchedByte s 1))) := by
  unfold headerRow at unknown
  simp only [step, State.fetch, running, fetchBytes_header inside, byteAt, List.getD_cons_zero, List.getD_cons_succ,
    unknown, if_true]
  rfl

/-- A trailing field out of bounds: MemoryFault, the whole instruction consumed (R72). -/
theorem step_of_trailing_outside {l : Nat} {build : List Byte → Instr} (running : s.flags.running = true)
    (inside : s.inBounds (s.localEA s.pc) 3) (row : headerRow s = some (l, build))
    (outside : ¬ (l = 0 ∨ s.inBounds (s.localEA (s.pc + 3)) l)) :
    step s = .next (fetchFaulted s (3 + l) (.memory (s.localEA (s.pc + 3)))
      (some (fetchedByte s 0, fetchedByte s 1))) := by
  have trailing : s.fetchBytes (s.localEA (s.pc + 3)) l = .error (.memory (s.localEA (s.pc + 3))) :=
    fetchBytes_eq_error.mpr ⟨outside, rfl⟩
  unfold headerRow at row
  simp only [step, State.fetch, running, fetchBytes_header inside, byteAt, List.getD_cons_zero, List.getD_cons_succ,
    row, trailing, pc_past, if_true]
  rfl

/-- A whole instruction fetched: it executes with PC past it (R68, R69, R73). -/
theorem step_of_fetched {l : Nat} {build : List Byte → Instr} (running : s.flags.running = true)
    (inside : s.inBounds (s.localEA s.pc) 3) (row : headerRow s = some (l, build))
    (trailingInside : l = 0 ∨ s.inBounds (s.localEA (s.pc + 3)) l) :
    step s = exec (build (trailingBytes s l)) (s.setPc (s.pc + BitVec.ofNat 64 (3 + l))) := by
  have trailing : s.fetchBytes (s.localEA (s.pc + 3)) l = .ok (trailingBytes s l) :=
    fetchBytes_eq_ok.mpr ⟨trailingInside, rfl⟩
  unfold headerRow at row
  simp only [step, State.fetch, running, fetchBytes_header inside, byteAt, List.getD_cons_zero, List.getD_cons_succ,
    row, trailing, pc_past, if_true]

/-! ### What a fault leaves, wherever in the step it is raised -/

/-- A header out of bounds consumes 3 bytes (R72). -/
theorem consumedBytes_of_header_outside (outside : ¬ s.inBounds (s.localEA s.pc) 3) : consumedBytes s = 3 :=
  if_neg outside

/-- An unknown header consumes 3 bytes (R72). -/
theorem consumedBytes_of_unknown_header (inside : s.inBounds (s.localEA s.pc) 3) (unknown : headerRow s = none) :
    consumedBytes s = 3 := by
  rw [consumedBytes, if_pos inside, fetchedLength_eq, unknown]
  rfl

/-- A known header consumes the whole instruction (R72). -/
theorem consumedBytes_of_row {l : Nat} {build : List Byte → Instr} (inside : s.inBounds (s.localEA s.pc) 3)
    (row : headerRow s = some (l, build)) : consumedBytes s = 3 + l := by
  rw [consumedBytes, if_pos inside, fetchedLength_eq, row]
  rfl

/-- The family and variant bytes a report of this step holds: those of the header, where it was fetched (R130). -/
def reportedHeader (s : State) : Option (Byte × Byte) :=
  if s.inBounds (s.localEA s.pc) 3 then some (fetchedByte s 0, fetchedByte s 1) else none

/-- A fault of an instruction in execution leaves what a fault of the fetch does that consumed the whole instruction: PC
goes back by the length it advanced, to where the step started (R71, R72). -/
theorem faultOf_setPc (sound : s.regsSound = true) (i : Instr) (f : Fault) :
    faultOf i f (s.setPc (s.pc + BitVec.ofNat 64 i.length)) = fetchFaulted s i.length f (some (i.fam, i.var)) := by
  rw [faultOf, setPc_pc sound, BitVec.add_sub_cancel]
  rfl

/-- An instruction in execution that adds a report has taken a fault: one with effects keeps the reports (R71). -/
theorem exec_reporting {i : Instr} (ends : exec i s = .next t) (reporting : t.reports ≠ s.reports) :
    ∃ f, t = faultOf i f s := by
  rcases exec_cases i s t ends with faulted | effect
  · exact faulted
  · exact absurd effect.reports reporting

/-- Any step that adds a report has taken one fault, and left what a fault does that consumed the bytes of R72: the two
faults of a header and that of a trailing field by the fetch, every other by the instruction in execution. -/
theorem step_reporting (sound : s.regsSound = true) (running : s.flags.running = true) (ends : step s = .next t)
    (reporting : t.reports ≠ s.reports) :
    ∃ f, t = fetchFaulted s (consumedBytes s) f (reportedHeader s) := by
  by_cases inside : s.inBounds (s.localEA s.pc) 3
  case neg =>
    rw [step_of_header_outside running inside] at ends
    cases ends
    rw [consumedBytes_of_header_outside inside, reportedHeader, if_neg inside]
    exact ⟨_, rfl⟩
  rw [reportedHeader, if_pos inside]
  cases row : headerRow s with
  | none =>
    rw [step_of_unknown_header running inside row] at ends
    cases ends
    rw [consumedBytes_of_unknown_header inside row]
    exact ⟨_, rfl⟩
  | some found =>
    obtain ⟨l, build⟩ := found
    rw [consumedBytes_of_row inside row]
    by_cases trailingInside : l = 0 ∨ s.inBounds (s.localEA (s.pc + 3)) l
    · rw [step_of_fetched running inside row trailingInside] at ends
      obtain ⟨f, rfl⟩ := exec_reporting ends reporting
      obtain ⟨hfam, hvar, -, htrailing⟩ := decodeHeader_build (trailingBytes s l) row
      have hlength : (build (trailingBytes s l)).length = 3 + l := congrArg (3 + ·) htrailing
      refine ⟨f, ?_⟩
      rw [← hlength, ← hfam, ← hvar]
      exact faultOf_setPc sound _ f
    · rw [step_of_trailing_outside running inside row trailingInside] at ends
      cases ends
      exact ⟨_, rfl⟩

/-- Settles O40: a step that adds a report is one of a running core, and `step_reporting` gives the state it leaves. -/
theorem faultingStepUndoesEverything : Obligations.FaultingStepUndoesEverything := by
  intro s t sound ends reporting
  cases running : s.flags.running with
  | false =>
    rw [step_of_halted running] at ends
    cases ends
    exact absurd rfl reporting
  | true =>
    obtain ⟨f, rfl⟩ := step_reporting sound running ends reporting
    have runs : (s.flags.running && !s.params.faultHalts) = !s.params.faultHalts := by rw [running, Bool.true_and]
    exact ⟨by simp only [fetchFaulted, runs], _, rfl, rfl, rfl⟩

end Sys2Proof.StepFaults
end

section
/-! What the statement of any instruction needs: its encoding (30_encoding.md R54), how it ends (40_step.md R71), and the
operands it rejects (10_state.md R11; 30_encoding.md R60, R131). -/

namespace Sys2Proof.InstructionRules

open Machine Laws

variable {i : Instr} {s : State} {f : Fault} {r : Except Fault State}

/-! ### Encodings -/

/-- An instruction is encoded as `encode` says where the row of its own header builds it from its own trailing field. -/
theorem encodedAs_of_row {l : Nat} {build : List Byte → Instr} (row : decodeHeader true i.fam i.var i.g = some (l, build))
    (trailing : i.trailing.length = l) (built : build i.trailing = i) : EncodedAs i (encode i) := by
  subst trailing
  refine ⟨rfl, fun rest => ?_⟩
  simp [encode, decode, row, built]

/-- A number that fits `n` bytes is read back from them (R39, R57). -/
theorem leNat_leBytes_of_lt {n v : Nat} (fits : v < 2 ^ (8 * n)) : leNat (leBytes n v) = v := by
  rw [leNat_leBytes, Nat.mod_eq_of_lt]
  rwa [Nat.pow_mul] at fits

/-- A field of a `w`-bit value that fits `n` bytes is read back from them (R57, R58). -/
theorem field_leBytes {w n : Nat} {v : BitVec w} (fits : v.toNat < 2 ^ (8 * n)) :
    BitVec.ofNat w (leNat (leBytes n v.toNat)) = v := by
  rw [leNat_leBytes_of_lt fits, BitVec.ofNat_toNat, BitVec.setWidth_eq]

/-- An address field is read back from its 8 bytes (R58). -/
theorem addrField_leBytes (a : Addr) : BitVec.ofNat 64 (leNat (leBytes 8 a.toNat)) = a := field_leBytes a.isLt

/-! ### How an instruction ends -/

/-- An instruction whose effect faults takes that fault (R71): its length is that of its encoding. -/
theorem takesFault_of_error (meaning : exec i s = finish i s r) (faults : r = .error f) : TakesFault i f s := by
  subst faults
  have length_eq : (encode i).length = i.length := by
    simp only [encode, Instr.length, List.length_cons]
    omega
  refine ⟨faultOf i f s, meaning, rfl, fun _ => rfl, rfl, rfl, ?_⟩
  rw [length_eq]
  rfl

/-- An instruction whose effect is a write through a view changes the bits of that view and nothing else (R13). -/
theorem writesView_of_ok {d : View} {x : BitVec d.width.bits} {bit : Nat → Bool} (meaning : exec i s = finish i s r)
    (writes : r = .ok (s.writeView d x)) (hd : d.reg < s.regs.length)
    (bits : ∀ k, k < d.width.bits → x.getLsbD k = bit k) :
    ∃ t, exec i s = .next t ∧
      (∀ k, (t.reg d.reg).getLsbD k = if k < d.width.bits then bit k else (s.reg d.reg).getLsbD k) ∧
      SameRegsBut s t (fun j => j = d.reg) ∧ SameMem s t ∧ t.flags = s.flags ∧ Quiet s t := by
  refine ⟨s.writeView d x, meaning.trans (finish_eq_next.mpr (.inl writes)), fun k => ?_,
    fun _ other => writeView_reg_ne s d x other, RegisterViews.writeView_sameMem s d x, writeView_flags s d x,
    RegisterViews.writeView_quiet s d x⟩
  rw [writeView_getLsbD s x d.reg k hd]
  by_cases hk : k < d.width.bits
  · simp only [hk, and_self, if_true, bits k hk]
  · simp only [hk, and_false, if_false]

/-! ### Operands -/

section Operands

variable {id id' : RegId} {α : Type}

/-- What follows a valid operand goes on with the view its id names. -/
theorem operand_bind_of_names {v : View} {next : View → Except Fault α} (valid : s.names id v) :
    (operand s.params.nreg id >>= next) = next v := by
  rw [operand_eq_ok.mpr valid]
  rfl

/-- What follows an invalid operand is not reached. -/
theorem operand_bind_of_invalid {nreg : Nat} {next : View → Except Fault α} (invalid : viewOf nreg id = none) :
    (operand nreg id >>= next) = .error (.invalidRegister id) := by
  rw [operand_eq_error.mpr ⟨invalid, rfl⟩]
  rfl

/-- What follows the width check of operands of one width goes on. -/
theorem sameWidth_bind_of_eq {v w : View} {next : Unit → Except Fault α} (agree : v.width = w.width) :
    (sameWidth v w >>= next) = next () := by
  rw [sameWidth_eq_ok.mpr agree]
  rfl

/-- What follows the width check of operands of different widths is not reached. -/
theorem sameWidth_bind_of_ne {v w : View} {next : Unit → Except Fault α} (differ : v.width ≠ w.width) :
    (sameWidth v w >>= next) = .error .widthMismatch := by
  rw [sameWidth_eq_error.mpr ⟨differ, rfl⟩]
  rfl

/-- An instruction of one operand, checked first, rejects it where it is invalid; one operand has no width to differ from. -/
theorem rejectsOperands_one {next : View → Except Fault State} (ids : i.operandIds = [id])
    (meaning : exec i s = finish i s (operand s.params.nreg id >>= next)) : RejectsOperands i s := by
  constructor
  · intro bad first
    rw [ids] at first
    obtain ⟨invalid, rfl⟩ : viewOf s.params.nreg id = none ∧ id = bad := by simpa using first
    exact takesFault_of_error meaning (operand_bind_of_invalid invalid)
  · intro _ differ
    simp [Instr.widthsAgree, ids] at differ

/-- An instruction of two operands of one width, checked first, rejects the first invalid one, else two widths that
differ. -/
theorem rejectsOperands_two {next : View → View → Unit → Except Fault State} (ids : i.operandIds = [id, id'])
    (meaning : exec i s = finish i s (do
      let v ← operand s.params.nreg id
      let w ← operand s.params.nreg id'
      sameWidth v w >>= next v w)) : RejectsOperands i s := by
  constructor
  · intro bad first
    rw [ids] at first
    cases valid : viewOf s.params.nreg id with
    | none =>
      obtain rfl : id = bad := by simpa [valid] using first
      exact takesFault_of_error meaning (operand_bind_of_invalid valid)
    | some v =>
      obtain ⟨invalid, rfl⟩ : viewOf s.params.nreg id' = none ∧ id' = bad := by simpa [valid] using first
      rw [operand_bind_of_names valid, operand_bind_of_invalid invalid] at meaning
      exact takesFault_of_error meaning rfl
  · intro idsValid differ
    simp only [Instr.idsValid, ids, List.all_cons, List.all_nil, Bool.and_true, Bool.and_eq_true,
      Option.isSome_iff_exists] at idsValid
    obtain ⟨⟨v, hv⟩, ⟨w, hw⟩⟩ := idsValid
    have idWidths : regWidth id' ≠ regWidth id := by simpa [Instr.widthsAgree, ids] using differ
    have widths : v.width ≠ w.width := by
      rw [viewOf_width hv, viewOf_width hw]
      exact idWidths.symm
    rw [operand_bind_of_names hv, operand_bind_of_names hw, sameWidth_bind_of_ne widths] at meaning
    exact takesFault_of_error meaning rfl

end Operands

end Sys2Proof.InstructionRules
end

section
/-! The data moves (41_data_move.md R77 to R82): a register view written from a view, an immediate or memory, and memory
written from a view. -/

namespace Sys2Proof.DataMoves

open Machine Laws InstructionRules

variable {s : State} {id : RegId} {v : View} {ea : Addr}

/-! ### MOV and MOVI -/

/-- Settles O11: the bits written are those read from the source at the shared width. -/
theorem movCopiesView : Obligations.MovCopiesView := by
  intro dest src s sound
  refine ⟨encodedAs_of_row rfl rfl rfl, rejectsOperands_two rfl rfl, fun d r hd hr agree => ?_⟩
  refine writesView_of_ok (x := s.readReg r.reg d.width) rfl ?_ (names_lt sound hd) fun k hk => ?_
  · rw [operand_bind_of_names hd, operand_bind_of_names hr, sameWidth_bind_of_eq agree]
    rfl
  · exact (RegisterViews.readView_getLsbD s ⟨r.reg, d.width⟩ k).trans (by simp [hk])

/-- Settles O12: the immediate fits its field, so it is read back from it, and the bits written are its own. -/
theorem moviLoadsImmediate : Obligations.MoviLoadsImmediate := by
  intro dest imm s sound
  refine ⟨fun fits => ?_, rejectsOperands_one rfl rfl, fun d hd => ?_⟩
  · have immediate : imm.toNat < 2 ^ (regWidth dest).bits := of_decide_eq_true fits
    exact encodedAs_of_row rfl (leBytes_length ..) (congrArg (Instr.movi dest) (field_leBytes immediate))
  · exact writesView_of_ok rfl (operand_bind_of_names hd) (names_lt sound hd) fun k hk => by simp [hk]

/-! ### Loads -/

/-- A load in bounds writes the bytes read through the view (R79, R81). -/
theorem loadView_of_inside (valid : s.names id v) (inside : s.inBounds ea v.width.bytes) :
    loadView s id ea =
      .ok (s.writeView v (BitVec.ofNat v.width.bits (leNat (s.mem.readBytes ea.toNat v.width.bytes)))) := by
  rw [loadView, operand_bind_of_names valid, memRead_eq_ok.mpr ⟨inside, rfl⟩]
  rfl

/-- A load out of bounds is MemoryFault (R35). -/
theorem loadView_of_outside (valid : s.names id v) (outside : ¬ s.inBounds ea v.width.bytes) :
    loadView s id ea = .error (.memory ea) := by
  rw [loadView, operand_bind_of_names valid, memRead_eq_error.mpr ⟨outside, rfl⟩]
  rfl

/-- Settles O13: LDL and LDG are one load, each at its own effective address. -/
theorem loadsReadMemory : Obligations.LoadsReadMemory := by
  intro dest addr ea s i sound hi
  obtain ⟨ids, meaning⟩ : i.operandIds = [dest] ∧ exec i s = finish i s (loadView s dest ea) := by
    rcases hi with ⟨rfl, rfl⟩ | ⟨rfl, rfl⟩ <;> exact ⟨rfl, rfl⟩
  refine ⟨encodedAs_of_row rfl rfl (congrArg _ (addrField_leBytes addr)),
    encodedAs_of_row rfl rfl (congrArg _ (addrField_leBytes addr)), rejectsOperands_one ids meaning, fun d hd => ?_⟩
  split
  next inside =>
    exact writesView_of_ok meaning (loadView_of_inside hd inside) (names_lt sound hd) fun k hk =>
      readValue_getLsbD s.mem ea.toNat d.width.bytes k hk
  next outside => exact takesFault_of_error meaning (loadView_of_outside hd outside)

/-! ### Stores -/

/-- A store in bounds writes the bytes of the view's value (R80, R82). -/
theorem storeView_of_inside (valid : s.names id v) (inside : s.inBounds ea v.width.bytes) :
    storeView s id ea =
      .ok { s with mem := s.mem.writeBytes ea.toNat (leBytes v.width.bytes (s.readView v).toNat) } := by
  rw [storeView, operand_bind_of_names valid, memWrite_eq_ok.mpr ⟨inside, rfl⟩]

/-- A store out of bounds is MemoryFault (R35). -/
theorem storeView_of_outside (valid : s.names id v) (outside : ¬ s.inBounds ea v.width.bytes) :
    storeView s id ea = .error (.memory ea) := by
  rw [storeView, operand_bind_of_names valid, memWrite_eq_error.mpr ⟨outside, rfl⟩]

/-- A byte of the value read through a view is the register's byte (R12). -/
theorem readView_byte (s : State) (v : View) {k : Nat} (hk : k < v.width.bytes) :
    (s.readView v).extractLsb' (8 * k) 8 = (s.reg v.reg).extractLsb' (8 * k) 8 :=
  BitVec.extractLsb'_setWidth_of_le (by simp only [Width.bits]; omega)

/-- Settles O14: STL and STG are one store, each at its own effective address; what it leaves in memory is what a write
of the view's value does. -/
theorem storesWriteMemory : Obligations.StoresWriteMemory := by
  intro src addr ea s i hw hi
  obtain ⟨ids, meaning⟩ : i.operandIds = [src] ∧ exec i s = finish i s (storeView s src ea) := by
    rcases hi with ⟨rfl, rfl⟩ | ⟨rfl, rfl⟩ <;> exact ⟨rfl, rfl⟩
  refine ⟨encodedAs_of_row rfl rfl (congrArg _ (addrField_leBytes addr)),
    encodedAs_of_row rfl rfl (congrArg _ (addrField_leBytes addr)), rejectsOperands_one ids meaning, fun r hr => ?_⟩
  split
  next inside =>
    refine ⟨_, meaning.trans (finish_eq_next.mpr (.inl (storeView_of_inside hr inside))), fun k hk => ?_,
      MemoryAccess.sameMemOutside_of_written hw rfl, rfl, rfl, rfl, rfl, rfl⟩
    rw [MemoryAccess.memHolds_of_written hw rfl k hk, readView_byte s r hk]
  next outside => exact takesFault_of_error meaning (storeView_of_outside hr outside)

end Sys2Proof.DataMoves
end

section
/-! The arithmetic of register triples (42_arithmetic.md R92, R93, R95, R96) and CMP (R94). The instructions of a triple
share `aluTriple`: the lemmas here say what it answers and what each answer means for the instruction, so that SUM, SUB,
MUL and DIV differ in the ALU's result alone. -/

namespace Sys2Proof.Arithmetic

open Machine Laws InstructionRules

variable {i : Instr} {s : State} {op : AluOp} {dest src1 src2 : RegId} {d v1 v2 : View} {f : Fault}

/-! ### Operands of a triple -/

/-- The first invalid id of a triple, in the order dest, src1, src2, is the fault (R11, R131). -/
theorem aluTriple_of_invalid {bad : RegId}
    (first : [dest, src1, src2].find? (fun id => (viewOf s.params.nreg id).isNone) = some bad) :
    aluTriple op dest src1 src2 s = .error (.invalidRegister bad) := by
  unfold aluTriple
  cases hd : viewOf s.params.nreg dest with
  | none =>
    obtain rfl : dest = bad := by simpa [hd] using first
    exact operand_bind_of_invalid hd
  | some d =>
    rw [operand_bind_of_names hd]
    cases h1 : viewOf s.params.nreg src1 with
    | none =>
      obtain rfl : src1 = bad := by simpa [hd, h1] using first
      exact operand_bind_of_invalid h1
    | some v1 =>
      obtain ⟨h2, rfl⟩ : viewOf s.params.nreg src2 = none ∧ src2 = bad := by simpa [hd, h1] using first
      rw [operand_bind_of_names h1, operand_bind_of_invalid h2]

/-- Valid operands of a triple that do not share the width of the destination are the fault (R60). -/
theorem aluTriple_of_mismatch (hd : s.names dest d) (h1 : s.names src1 v1) (h2 : s.names src2 v2)
    (differ : d.width = v1.width → d.width ≠ v2.width) :
    aluTriple op dest src1 src2 s = .error .widthMismatch := by
  rw [aluTriple, operand_bind_of_names hd, operand_bind_of_names h1, operand_bind_of_names h2]
  by_cases w1 : d.width = v1.width
  · rw [sameWidth_bind_of_eq w1, sameWidth_bind_of_ne (differ w1)]
  · rw [sameWidth_bind_of_ne w1]

/-! ### How an instruction on a triple ends -/

/-- An instruction whose meaning is a triple rejects the operands that are not legal. -/
theorem rejectsOperands_of_aluTriple (ids : i.operandIds = [dest, src1, src2])
    (meaning : exec i s = finish i s (aluTriple op dest src1 src2 s)) : RejectsOperands i s := by
  constructor
  · intro bad first
    rw [ids] at first
    exact takesFault_of_error meaning (aluTriple_of_invalid first)
  · intro idsValid disagree
    simp only [Instr.idsValid, ids, List.all_cons, List.all_nil, Bool.and_true, Bool.and_eq_true,
      Option.isSome_iff_exists] at idsValid
    obtain ⟨⟨d, hd⟩, ⟨v1, h1⟩, ⟨v2, h2⟩⟩ := idsValid
    refine takesFault_of_error meaning (aluTriple_of_mismatch hd h1 h2 ?_)
    rw [viewOf_width hd, viewOf_width h1, viewOf_width h2]
    intro w1 w2
    simp [Instr.widthsAgree, ids, ← w1, ← w2] at disagree

/-- A result written through the destination view with the flags refreshed is what R84 and R92 ask for. -/
theorem aluDone_writeView_compare (hd : d.reg < s.regs.length) (a b r : BitVec d.width.bits) :
    AluDone s ((s.writeView d r).compare a b) d a b r.toNat := by
  refine ⟨congrArg BitVec.toNat (readView_writeView s r hd), fun k outside => ?_,
    fun _ other => writeView_reg_ne s d r other, RegisterViews.writeView_sameMem s d r, rfl,
    RegisterViews.writeView_quiet s d r⟩
  rw [compare_reg, writeView_getLsbD s r d.reg k hd, if_neg (fun inside => Nat.not_lt.mpr outside inside.2)]

section LegalOperands

variable (hd : s.names dest d) (h1 : s.names src1 v1) (h2 : s.names src2 v2) (w1 : d.width = v1.width)
  (w2 : d.width = v2.width)

include hd h1 h2 w1 w2

/-- On legal operands a triple is its ALU call, with the result written and the flags refreshed (R92). -/
theorem aluTriple_of_legal :
    aluTriple op dest src1 src2 s = (do
      let r ← aluApply op (s.readReg v1.reg d.width) (s.readReg v2.reg d.width)
      return (s.writeView d r).compare (s.readReg v1.reg d.width) (s.readReg v2.reg d.width)) := by
  rw [aluTriple, operand_bind_of_names hd, operand_bind_of_names h1, operand_bind_of_names h2, sameWidth_bind_of_eq w1,
    sameWidth_bind_of_eq w2]

/-- Where the ALU answers, an instruction on a triple of legal operands writes the result and refreshes the flags. -/
theorem exec_aluDone {r : BitVec d.width.bits} {q : Nat}
    (meaning : exec i s = finish i s (aluTriple op dest src1 src2 s)) (sound : s.regsSound = true)
    (answers : aluApply op (s.readReg v1.reg d.width) (s.readReg v2.reg d.width) = .ok r) (value : r.toNat = q) :
    ∃ t, exec i s = .next t ∧ AluDone s t d (s.readReg v1.reg d.width) (s.readReg v2.reg d.width) q := by
  subst value
  rw [aluTriple_of_legal hd h1 h2 w1 w2, answers] at meaning
  exact ⟨_, meaning, aluDone_writeView_compare (names_lt sound hd) ..⟩

/-- Where the ALU faults, so does the instruction, with nothing written (R85). -/
theorem takesFault_of_alu (meaning : exec i s = finish i s (aluTriple op dest src1 src2 s))
    (faults : aluApply op (s.readReg v1.reg d.width) (s.readReg v2.reg d.width) = .error f) : TakesFault i f s := by
  refine takesFault_of_error meaning ?_
  rw [aluTriple_of_legal hd h1 h2 w1 w2, faults]
  rfl

end LegalOperands

/-! ### The ALU's results -/

section Results

variable {n : Nat} (a b : BitVec n)

/-- The difference wraps as the integer difference does: the ALU adds `2^n` before it subtracts (R87). -/
theorem toNat_ofNat_difference :
    (BitVec.ofNat n (2 ^ n + a.toNat - b.toNat)).toNat = (((a.toNat : Int) - (b.toNat : Int)) % (2 ^ n : Int)).toNat := by
  have noBorrow : b.toNat ≤ 2 ^ n + a.toNat := Nat.le_add_right_of_le b.isLt.le
  have wraps : ((2 ^ n + a.toNat - b.toNat : Nat) : Int) % 2 ^ n = ((a.toNat : Int) - b.toNat) % 2 ^ n := by
    rw [Nat.cast_sub noBorrow, Nat.cast_add, Nat.cast_pow, Nat.cast_ofNat, add_sub_assoc, Int.add_emod_left]
  rw [BitVec.toNat_ofNat, ← wraps]
  norm_cast

/-- Division by zero is ArithmeticFault (R89). -/
theorem divide_of_zero (zero : b.toNat = 0) : divide a b = .error .divideByZero := if_pos zero

/-- Division by another number gives the truncated quotient (R89). -/
theorem divide_of_ne_zero (nonzero : b.toNat ≠ 0) : divide a b = .ok (BitVec.ofNat n (a.toNat / b.toNat)) :=
  if_neg nonzero

/-- A quotient is no greater than its dividend, so it fits the width. -/
theorem toNat_ofNat_quotient : (BitVec.ofNat n (a.toNat / b.toNat)).toNat = a.toNat / b.toNat := by
  rw [BitVec.toNat_ofNat, Nat.mod_eq_of_lt (Nat.lt_of_le_of_lt (Nat.div_le_self ..) a.isLt)]

end Results

/-! ### SUM, SUB, MUL, DIV -/

/-- Settles O15: a sum of bit vectors is the sum of their values, cut to the width. -/
theorem sumWraps : Obligations.SumWraps := fun _ _ _ _ sound =>
  ⟨encodedAs_of_row rfl rfl rfl, rejectsOperands_of_aluTriple (op := .sum) rfl rfl, fun _ _ _ hd h1 h2 w1 w2 =>
    exec_aluDone (op := .sum) hd h1 h2 w1 w2 rfl sound rfl (BitVec.toNat_ofNat ..)⟩

/-- Settles O16: the ALU's difference of naturals wraps as the difference of integers does. -/
theorem subWraps : Obligations.SubWraps := fun _ _ _ _ sound =>
  ⟨encodedAs_of_row rfl rfl rfl, rejectsOperands_of_aluTriple (op := .sub) rfl rfl, fun _ _ _ hd h1 h2 w1 w2 =>
    exec_aluDone (op := .sub) hd h1 h2 w1 w2 rfl sound rfl (toNat_ofNat_difference ..)⟩

/-- Settles O17: a product of bit vectors is the product of their values, cut to the width. -/
theorem mulKeepsLowHalf : Obligations.MulKeepsLowHalf := fun _ _ _ _ sound =>
  ⟨encodedAs_of_row rfl rfl rfl, rejectsOperands_of_aluTriple (op := .mul) rfl rfl, fun _ _ _ hd h1 h2 w1 w2 =>
    exec_aluDone (op := .mul) hd h1 h2 w1 w2 rfl sound rfl (BitVec.toNat_ofNat ..)⟩

/-- Settles O18: by zero the ALU faults before anything is written; else the quotient fits the width uncut. -/
theorem divTruncates : Obligations.DivTruncates := by
  intro dest src1 src2 s sound
  refine ⟨encodedAs_of_row rfl rfl rfl, rejectsOperands_of_aluTriple (op := .div) rfl rfl,
    fun d v1 v2 hd h1 h2 w1 w2 => ?_⟩
  split
  next zero => exact takesFault_of_alu (op := .div) hd h1 h2 w1 w2 rfl (divide_of_zero _ _ zero)
  next nonzero =>
    exact exec_aluDone (op := .div) hd h1 h2 w1 w2 rfl sound (divide_of_ne_zero _ _ nonzero) (toNat_ofNat_quotient ..)

/-! ### CMP -/

/-- A comparison writes the flags of the unsigned comparison, RUNNING kept, and nothing else (R84, R94). -/
theorem compare_flagsOnly {n : Nat} (s : State) (a b : BitVec n) :
    (s.compare a b).flags = { running := s.flags.running, equals := decide (a.toNat = b.toNat)
                              less := decide (a.toNat < b.toNat), more := decide (b.toNat < a.toNat) } ∧
    (s.compare a b).regs = s.regs ∧ SameMem s (s.compare a b) ∧ Quiet s (s.compare a b) :=
  ⟨rfl, rfl, fun _ => rfl, rfl, rfl, rfl⟩

/-- Settles O20: on operands of one width the ALU's subtraction answers, and only its comparison is kept. -/
theorem cmpSetsFlagsOnly : Obligations.CmpSetsFlagsOnly := by
  intro a b s
  refine ⟨encodedAs_of_row rfl rfl rfl, rejectsOperands_two rfl rfl, fun va vb ha hb agree => ?_⟩
  obtain ⟨regB, widthB⟩ := vb
  obtain rfl : va.width = widthB := agree
  refine ⟨s.compare (s.readView va) (s.readReg regB va.width), finish_eq_next.mpr (.inl ?_), compare_flagsOnly ..⟩
  rw [operand_bind_of_names ha, operand_bind_of_names hb, sameWidth_bind_of_eq (v := va) (w := ⟨regB, va.width⟩) rfl]
  rfl

end Sys2Proof.Arithmetic
end

section
/-! The pushes of the stack family (43_stack.md R101, R103 to R107): what one `push` leaves (R98), what an instruction
that is one push does, and the six instructions that are. -/

namespace Sys2Proof.StackPushes

open Machine Laws InstructionRules

/-! ### One push -/

section OnePush

variable {i : Instr} {s t : State} {n : Nat} {v : BitVec (8 * n)}

/-- A push that answers leaves the value in the slot below SP, SP moved there, and everything else as it was (R98). -/
theorem pushed_of_push (sound : s.regsSound = true) (hw : s.mem.wf = true) (answers : s.push n v = .ok t) :
    Pushed s t n v ∧ SameRegsBut s t (fun j => j = s.params.spIdx) := by
  obtain ⟨-, rfl⟩ := push_eq_ok.mp answers
  refine ⟨⟨?_, MemoryAccess.memHolds_of_written hw rfl, MemoryAccess.sameMemOutside_of_written hw rfl, rfl, rfl,
    setAddr_length .., rfl⟩, fun _ other => setAddr_reg_ne _ _ other⟩
  exact (setAddr_reg _ _ _ (spIdx_lt sound)).trans (if_pos rfl)

/-- An instruction whose effect is one push does it where the slot is in bounds; elsewhere it is MemoryFault at the slot,
with nothing written (R71, R98). -/
theorem pushes_or_faults (sound : s.regsSound = true) (hw : s.mem.wf = true)
    (meaning : exec i s = finish i s (s.push n v)) :
    if (pushSlot s n).toNat + n ≤ s.params.memSize then
      ∃ t, exec i s = .next t ∧ Pushed s t n v ∧ SameRegsBut s t (fun j => j = s.params.spIdx)
    else TakesFault i (.memory (pushSlot s n)) s := by
  split
  next inside =>
    have answers := (push_eq_ok (v := v)).mpr ⟨inside, rfl⟩
    exact ⟨_, meaning.trans (finish_eq_next.mpr (.inl answers)), pushed_of_push sound hw answers⟩
  next outside => exact takesFault_of_error meaning (push_eq_error.mpr ⟨outside, rfl⟩)

end OnePush

/-! ### PUSH and PUSHI -/

/-- Settles O22: past its operand check PUSH is one push of the view's value, read before SP moves. -/
theorem pushStoresView : Obligations.PushStoresView := by
  intro src s sound hw
  refine ⟨encodedAs_of_row rfl rfl rfl, rejectsOperands_one rfl rfl, fun r hr => pushes_or_faults sound hw ?_⟩
  exact congrArg (finish (.push src) s) (operand_bind_of_names hr)

/-- Settles O24: each PUSHI is one push of its immediate, which is read back from a field of its own width. -/
theorem pushImmediates : Obligations.PushImmediates := by
  intro g s n v i var sound hw hi
  obtain ⟨encoded, meaning⟩ :
      EncodedAs i ([0x02, var, g] ++ leBytes n v.toNat) ∧ exec i s = finish i s (s.push n v) := by
    have immediate : BitVec.ofNat (8 * n) (leNat (leBytes n v.toNat)) = v := field_leBytes v.isLt
    rcases hi with ⟨⟨rfl, rfl⟩, rfl⟩ | ⟨⟨rfl, rfl⟩, rfl⟩ | ⟨⟨rfl, rfl⟩, rfl⟩ | ⟨⟨rfl, rfl⟩, rfl⟩ | ⟨⟨rfl, rfl⟩, rfl⟩
    · exact ⟨encodedAs_of_row rfl (leBytes_length ..) (congrArg (Instr.pushi128 g) immediate), rfl⟩
    · exact ⟨encodedAs_of_row rfl (leBytes_length ..) (congrArg (Instr.pushi64 g) immediate), rfl⟩
    · exact ⟨encodedAs_of_row rfl (leBytes_length ..) (congrArg (Instr.pushi32 g) immediate), rfl⟩
    · exact ⟨encodedAs_of_row rfl (leBytes_length ..) (congrArg (Instr.pushi16 g) immediate), rfl⟩
    · exact ⟨encodedAs_of_row rfl (leBytes_length ..) (congrArg (Instr.pushi8 g) immediate), rfl⟩
  exact ⟨encoded, pushes_or_faults sound hw meaning⟩

end Sys2Proof.StackPushes
end

section
/-! The control family's transfers (44_control.md R109 to R115, R117, R119): what moving PC changes, and the three shapes
that do it: a conditional jump, a call and a return. -/

namespace Sys2Proof.ControlTransfers

open Machine Laws InstructionRules

variable {i : Instr} {s t : State} {target : Addr}

/-! ### PC moved -/

/-- PC moved holds the target below its upper half, which is kept (R18). -/
theorem setPc_reg_pc (sound : s.regsSound = true) (target : Addr) :
    (s.setPc target).reg s.params.pcIdx = withAddr (s.reg s.params.pcIdx) target :=
  (setPc_reg sound ..).trans (if_pos rfl)

/-- Moving PC changes no other register (R18). -/
theorem setPc_sameRegsBut (s : State) (target : Addr) : SameRegsBut s (s.setPc target) (fun j => j = s.params.pcIdx) :=
  fun _ other => setAddr_reg_ne s target other

/-- Moving PC reports nothing and keeps the parameters and the number of registers. -/
theorem setPc_quiet (s : State) (target : Addr) : Quiet s (s.setPc target) :=
  ⟨setPc_params s target, setPc_length s target, setPc_reports s target⟩

/-- Moving PC after one other register has changed leaves all registers but the two. -/
theorem sameRegsBut_setPc {r : Nat} (params : t.params = s.params) (kept : SameRegsBut s t (fun j => j = r)) :
    SameRegsBut s (t.setPc target) (fun j => j = r ∨ j = s.params.pcIdx) := by
  intro j other
  obtain ⟨notR, notPc⟩ := not_or.mp other
  rw [← params] at notPc
  exact (setPc_sameRegsBut t target j notPc).trans (kept j notR)

/-! ### Conditional jumps -/

/-- An instruction that jumps on a condition, and on nothing else, moves PC where the condition holds and leaves the
state alone where it does not; it has no way to fault (R109). -/
theorem jumps_where_taken {cond : Bool} {taken : Prop} (sound : s.regsSound = true)
    (meaning : exec i s = finish i s (.ok (jumpIf cond target s))) (decides : taken ↔ cond = true) :
    ∃ t, exec i s = .next t ∧ (taken → t.reg s.params.pcIdx = withAddr (s.reg s.params.pcIdx) target) ∧
      (¬ taken → t.reg s.params.pcIdx = s.reg s.params.pcIdx) ∧
      SameRegsBut s t (fun j => j = s.params.pcIdx) ∧ SameMem s t ∧ t.flags = s.flags ∧ Quiet s t := by
  cases cond with
  | true =>
    exact ⟨s.setPc target, meaning, fun _ => setPc_reg_pc sound target, fun untaken => absurd (decides.mpr rfl) untaken,
      setPc_sameRegsBut s target, fun _ => rfl, rfl, setPc_quiet s target⟩
  | false =>
    exact ⟨s, meaning, fun isTaken => absurd (decides.mp isTaken) Bool.false_ne_true, fun _ => rfl, fun _ _ => rfl,
      fun _ => rfl, rfl, rfl, rfl, rfl⟩

/-- JNE's condition is EQUALS clear (R108). -/
theorem condJne_iff (f : Flags) : condJne f = true ↔ f.equals = false := by simp [condJne]

/-- JLE's condition is LESS or EQUALS set (R108). -/
theorem condJle_iff (f : Flags) : condJle f = true ↔ f.less = true ∨ f.equals = true := by simp [condJle]

/-- JBE's condition is MORE clear or EQUALS set (R108). -/
theorem condJbe_iff (f : Flags) : condJbe f = true ↔ f.more = false ∨ f.equals = true := by simp [condJbe]

/-- Settles O26: the six are one shape, each with its own encoding and its own condition on the flags, which is that of
R108. -/
theorem conditionalJumps : Obligations.ConditionalJumps := by
  intro g target s i var taken sound hi
  obtain ⟨cond, encoded, meaning, decides⟩ : ∃ cond, EncodedAs i ([0x03, var, g] ++ leBytes 8 target.toNat) ∧
      exec i s = finish i s (.ok (jumpIf cond target s)) ∧ (taken ↔ cond = true) := by
    have field := addrField_leBytes target
    rcases hi with ⟨rfl, rfl, holds⟩ | ⟨rfl, rfl, holds⟩ | ⟨rfl, rfl, holds⟩ | ⟨rfl, rfl, holds⟩ | ⟨rfl, rfl, holds⟩ |
      ⟨rfl, rfl, holds⟩
    · exact ⟨condJe s.flags, encodedAs_of_row rfl rfl (congrArg (Instr.je g) field), rfl, holds⟩
    · exact ⟨condJne s.flags, encodedAs_of_row rfl rfl (congrArg (Instr.jne g) field), rfl,
        holds.trans (condJne_iff _).symm⟩
    · exact ⟨condJl s.flags, encodedAs_of_row rfl rfl (congrArg (Instr.jl g) field), rfl, holds⟩
    · exact ⟨condJb s.flags, encodedAs_of_row rfl rfl (congrArg (Instr.jb g) field), rfl, holds⟩
    · exact ⟨condJle s.flags, encodedAs_of_row rfl rfl (congrArg (Instr.jle g) field), rfl,
        holds.trans (condJle_iff _).symm⟩
    · exact ⟨condJbe s.flags, encodedAs_of_row rfl rfl (congrArg (Instr.jbe g) field), rfl,
        holds.trans (condJbe_iff _).symm⟩
  exact ⟨encoded, jumps_where_taken sound meaning decides⟩

/-! ### Calls -/

/-- A call whose push answers goes on to the target (R117). -/
theorem callTo_of_push (answers : s.push 8 s.pc = .ok t) : callTo target s = .ok (t.setPc target) := by
  rw [callTo, answers]
  rfl

/-- A call whose push faults is that fault (R117). -/
theorem callTo_of_push_error {f : Fault} (faults : s.push 8 s.pc = .error f) : callTo target s = .error f := by
  rw [callTo, faults]
  rfl

/-- Moving PC leaves in place what a push left (R98). -/
theorem pushed_setPc {n : Nat} {v : BitVec (8 * n)} (sound : s.regsSound = true) (pushed : Pushed s t n v) :
    Pushed s (t.setPc target) n v := by
  obtain ⟨sp, slot, outside, flags, params, length, reports⟩ := pushed
  refine ⟨?_, slot, outside, flags, params, (setPc_length t target).trans length, reports⟩
  have notPc : s.params.spIdx ≠ t.params.pcIdx := by
    rw [params]
    exact spIdx_ne_pcIdx sound
  exact (setPc_sameRegsBut t target _ notPc).trans sp

/-- An instruction that is one call pushes the return address and moves PC where the slot is in bounds; elsewhere it is
MemoryFault at the slot, with nothing written (R71, R117). -/
theorem calls_or_faults (sound : s.regsSound = true) (hw : s.mem.wf = true)
    (meaning : exec i s = finish i s (callTo target s)) :
    if (pushSlot s 8).toNat + 8 ≤ s.params.memSize then
      ∃ t, exec i s = .next t ∧ Pushed s t 8 s.pc ∧
        t.reg s.params.pcIdx = withAddr (s.reg s.params.pcIdx) target ∧
        SameRegsBut s t (fun j => j = s.params.spIdx ∨ j = s.params.pcIdx)
    else TakesFault i (.memory (pushSlot s 8)) s := by
  split
  next inside =>
    obtain ⟨u, answers⟩ : ∃ u, s.push 8 s.pc = .ok u := ⟨_, push_eq_ok.mpr ⟨inside, rfl⟩⟩
    obtain ⟨pushed, kept⟩ := StackPushes.pushed_of_push sound hw answers
    have params : u.params = s.params := (effect_push answers).params
    have soundAfter : u.regsSound = true := (regsSound_congr params (effect_push answers).length).trans sound
    refine ⟨u.setPc target, meaning.trans (finish_eq_next.mpr (.inl (callTo_of_push answers))),
      pushed_setPc sound pushed, ?_, sameRegsBut_setPc params kept⟩
    rw [← kept s.params.pcIdx (spIdx_ne_pcIdx sound).symm, ← params]
    exact setPc_reg_pc soundAfter target
  next outside =>
    exact takesFault_of_error meaning (callTo_of_push_error (push_eq_error.mpr ⟨outside, rfl⟩))

/-- Settles O27: CALL is one call to the address in its field. -/
theorem callPushesReturnAddress : Obligations.CallPushesReturnAddress := fun g target _ sound hw =>
  ⟨encodedAs_of_row rfl rfl (congrArg (Instr.call g) (addrField_leBytes target)), calls_or_faults sound hw rfl⟩

/-! ### RET -/

/-- The address a RET goes to: the eight bytes at SP (R119). -/
def returnAddress (s : State) : Addr := BitVec.ofNat 64 (leNat (s.mem.readBytes (popSlot s).toNat 8))

/-- The address a RET goes to, bit by bit (R36). -/
theorem returnAddress_getLsbD (s : State) {k : Nat} (hk : k < 64) :
    (returnAddress s).getLsbD k = memBit s (popSlot s).toNat k := readValue_getLsbD s.mem (popSlot s).toNat 8 k hk

/-- The state in which a pop of eight bytes has moved SP (R99). -/
def poppedSp (s : State) : State := s.setAddr s.params.spIdx (s.addr s.params.spIdx + 8)

/-- A RET in bounds moves SP, then PC (R119). -/
theorem exec_ret_of_inside (g : Byte) (inside : s.inBounds (popSlot s) 8) :
    exec (.ret g) s = .next ((poppedSp s).setPc (returnAddress s)) := by
  refine finish_eq_next.mpr (.inl ?_)
  rw [pop_eq_ok.mpr ⟨inside, rfl, rfl⟩]
  rfl

/-- A RET out of bounds is MemoryFault at SP's local address (R119). -/
theorem takesFault_ret_of_outside (g : Byte) (outside : ¬ s.inBounds (popSlot s) 8) :
    TakesFault (.ret g) (.memory (popSlot s)) s := by
  refine takesFault_of_error rfl ?_
  rw [pop_eq_error.mpr ⟨outside, rfl⟩]
  rfl

/-- Settles O29: SP and PC are two registers, so each keeps its own move, and PC reads back the address popped. -/
theorem retPopsPc : Obligations.RetPopsPc := by
  intro g s sound
  refine ⟨encodedAs_of_row rfl rfl rfl, ?_⟩
  split
  next inside =>
    have spKept : SameRegsBut s (poppedSp s) (fun j => j = s.params.spIdx) := fun _ other => setAddr_reg_ne s _ other
    have soundAfter : (poppedSp s).regsSound = true := (setAddr_regsSound ..).trans sound
    have pcRead : ((poppedSp s).setPc (returnAddress s)).pc = returnAddress s := setPc_pc soundAfter _
    refine ⟨_, exec_ret_of_inside g inside, fun k hk => ?_, ?_, ?_, sameRegsBut_setPc rfl spKept, fun _ => rfl, rfl, rfl,
      (setPc_length ..).trans (setAddr_length ..), rfl⟩
    · rw [pcRead, returnAddress_getLsbD s hk]
    · rw [pcRead, ← spKept s.params.pcIdx (spIdx_ne_pcIdx sound).symm]
      exact setPc_reg_pc soundAfter _
    · calc ((poppedSp s).setPc (returnAddress s)).reg s.params.spIdx
          = (poppedSp s).reg s.params.spIdx := setPc_sameRegsBut (poppedSp s) _ _ (spIdx_ne_pcIdx sound)
        _ = withAddr (s.reg s.params.spIdx) (s.addr s.params.spIdx + 8) :=
          (setAddr_reg s _ _ (spIdx_lt sound)).trans (if_pos rfl)
  next outside => exact takesFault_ret_of_outside g outside

end Sys2Proof.ControlTransfers
end

section
/-! Decoding and encoding are inverse (30_encoding.md sections 1 to 3): the row of the opcode map for an instruction's own
header builds it from its own trailing field, and a trailing field is that of the instruction a row builds from it. -/

namespace Sys2Proof.EncodingRoundTrip

open Machine Laws InstructionRules

variable {e : Bool} {fam var g : Byte} {l : Nat} {build : List Byte → Instr} {t : List Byte}

/-! ### From an instruction to its bytes and back -/

/-- The row for the header of an instruction builds it from its own trailing field, if its immediate fits and, for IDIV,
if it is enabled (R57, R58, R61, R97). -/
theorem decodeHeader_of_instr (e : Bool) (i : Instr) (fits : i.immFits = true)
    (enabled : e = true ∨ ∀ d a b, i ≠ .idiv d a b) :
    ∃ build, decodeHeader e i.fam i.var i.g = some (i.trailing.length, build) ∧ build i.trailing = i := by
  cases i with
  | mov | sum | sub | cmp | mul | div | push | pop | callr | ret | int | iret | hlt => exact ⟨_, rfl, rfl⟩
  | idiv d a b =>
    obtain rfl : e = true := enabled.resolve_right fun other => other d a b rfl
    exact ⟨_, rfl, rfl⟩
  | movi d imm =>
    have immediate : imm.toNat < 2 ^ (regWidth d).bits := of_decide_eq_true fits
    exact ⟨_, congrArg (fun n => some (n, _)) (leBytes_length ..).symm, congrArg (Instr.movi d) (field_leBytes immediate)⟩
  | ldl r v | stl r v | ldg r v | stg r v | pushi128 r v | pushi64 r v | pushi32 r v | pushi16 r v | pushi8 r v | je r v
  | jne r v | jl r v | jb r v | jle r v | jbe r v | call r v => exact ⟨_, rfl, congrArg _ (field_leBytes v.isLt)⟩

/-- Settles O3: past the header the decoder takes as many bytes as the trailing field has, and the row builds the
instruction from them. -/
theorem decodeOfEncode : Obligations.DecodeOfEncode := by
  intro e i rest fits enabled
  obtain ⟨build, row, built⟩ := decodeHeader_of_instr e i fits enabled
  simp [encode, decode, row, built]

/-! ### From bytes to an instruction and back -/

/-- A field of `n` bytes is a number below `2^(8n)` (R57). -/
theorem leNat_lt_two_pow (t : List Byte) : leNat t < 2 ^ (8 * t.length) :=
  (leNat_lt t).trans_eq (Nat.pow_mul 2 8 t.length).symm

/-- A field of `n` bytes held in at least as many bits is laid out again as the bytes it was read from (R57, R58). -/
theorem leBytes_field {n w : Nat} (len : t.length = n) (wide : 8 * n ≤ w) :
    leBytes n (BitVec.ofNat w (leNat t)).toNat = t := by
  subst len
  have fits : leNat t < 2 ^ w := (leNat_lt_two_pow t).trans_le (Nat.pow_le_pow_right (by decide) wide)
  rw [BitVec.toNat_ofNat, Nat.mod_eq_of_lt fits, leBytes_leNat]

/-- A field of one byte is that byte. -/
theorem byteAt_of_length_one (len : t.length = 1) : [byteAt t 0] = t := by
  obtain ⟨a, rfl⟩ := List.length_eq_one_iff.mp len
  rfl

/-- A field of two bytes is those bytes. -/
theorem byteAt_of_length_two (len : t.length = 2) : [byteAt t 0, byteAt t 1] = t := by
  obtain ⟨a, b, rfl⟩ := List.length_eq_two.mp len
  rfl

/-- The trailing field a row builds an instruction from is that instruction's, in each row: no byte, one byte, two
bytes, or a number (R54). -/
theorem trailing_build (row : decodeHeader e fam var g = some (l, build)) (len : t.length = l) :
    (build t).trailing = t := by
  unfold decodeHeader at row
  split at row <;> (try split at row) <;> cases row
  all_goals
    simp only [Instr.trailing, leBytes_field, byteAt_of_length_one, byteAt_of_length_two, List.nil_eq,
      ← List.length_eq_zero_iff, len, Width.bits_le, Nat.reduceMul, le_refl]

/-- The immediate a row builds MOVI with fits, for its field is as wide as the view (R56). MOVI is the table's second row;
the others build instructions whose every field is as wide as its type. -/
theorem immFits_build (row : decodeHeader e fam var g = some (l, build)) (len : t.length = l) :
    (build t).immFits = true := by
  unfold decodeHeader at row
  split at row <;> (try split at row) <;> cases row
  case h_2.refl =>
    have fits : leNat t < 2 ^ (regWidth g).bits := (leNat_lt_two_pow t).trans_eq (congrArg (fun n => 2 ^ (8 * n)) len)
    exact decide_eq_true ((Nat.mod_le _ _).trans_lt fits)
  all_goals rfl

/-- Settles O4: the header's three bytes are those of the instruction its row builds, and so is the trailing field; what
the decoder leaves is what it did not take. -/
theorem encodeOfDecode : Obligations.EncodeOfDecode := by
  intro e bs rest i decoded
  match bs with
  | fam :: var :: g :: field =>
    cases row : decodeHeader e fam var g with
    | none => simp [decode, row] at decoded
    | some found =>
      obtain ⟨l, build⟩ := found
      by_cases short : field.length < l
      · simp [decode, row, short] at decoded
      obtain ⟨rfl, rfl⟩ : build (field.take l) = i ∧ field.drop l = rest := by
        simpa [decode, row, short] using decoded
      have len : (field.take l).length = l := List.length_take_of_le (Nat.not_lt.mp short)
      obtain ⟨hfam, hvar, hg, -⟩ := decodeHeader_build (field.take l) row
      refine ⟨?_, immFits_build row len⟩
      rw [encode, hfam, hvar, hg, trailing_build row len]
      simp
  | [] | [_] | [_, _] => simp [decode] at decoded

/-- Settles O5: each word's bytes are those of the encoding. -/
theorem specWordsDecode : Obligations.SpecWordsDecode := ⟨rfl, rfl, rfl, rfl, rfl, rfl, rfl, rfl⟩

end Sys2Proof.EncodingRoundTrip
end

section
/-! What one step can do, said once (`step_cases`), and what follows from it: every step answers (40_step.md R71), reports
at most one fault (60_exceptions.md R131), writes flags as 10_state.md R23 says and keeps the invariant. -/

namespace Sys2Proof.StepInvariants

open Machine Laws StepFaults

variable {s t : State} {i : Instr}

/-! ### The ways a step can go -/

/-- `s` with the history of reports `rs`. -/
def withReports (s : State) (rs : List FaultReport) : State := { s with reports := rs }

/-- A step is that of a halted core, a fault of the fetch, or the execution of an instruction with PC past it; which of
them, and which fault or instruction, no history of reports decides (R30). -/
theorem step_cases_withReports (s : State) :
    (∀ rs, step (withReports s rs) = .next (withReports s rs)) ∨
      (∃ n f header, ∀ rs, step (withReports s rs) = .next (fetchFaulted (withReports s rs) n f header)) ∨
      ∃ i target, ∀ rs, step (withReports s rs) = exec i ((withReports s rs).setPc target) := by
  cases running : s.flags.running with
  | false => exact .inl fun rs => step_of_halted running
  | true =>
    right
    by_cases inside : s.inBounds (s.localEA s.pc) 3
    case neg =>
      exact .inl ⟨3, .memory (s.localEA s.pc), none, fun rs =>
        step_of_header_outside (s := withReports s rs) running inside⟩
    cases row : headerRow s with
    | none =>
      exact .inl ⟨3, .unknownEncoding, some (fetchedByte s 0, fetchedByte s 1), fun rs =>
        step_of_unknown_header (s := withReports s rs) running inside row⟩
    | some found =>
      obtain ⟨l, build⟩ := found
      by_cases trailingInside : l = 0 ∨ s.inBounds (s.localEA (s.pc + 3)) l
      · exact .inr ⟨build (trailingBytes s l), s.pc + BitVec.ofNat 64 (3 + l), fun rs =>
          step_of_fetched (s := withReports s rs) running inside row trailingInside⟩
      · exact .inl ⟨3 + l, .memory (s.localEA (s.pc + 3)), some (fetchedByte s 0, fetchedByte s 1), fun rs =>
          step_of_trailing_outside (s := withReports s rs) running inside row trailingInside⟩

/-- A step is that of a halted core, a fault of the fetch, or the execution of an instruction with PC past it. -/
theorem step_cases (s : State) :
    step s = .next s ∨ (∃ n f header, step s = .next (fetchFaulted s n f header)) ∨
      ∃ i target, step s = exec i (s.setPc target) := by
  rcases step_cases_withReports s with halted | ⟨n, f, header, stopped⟩ | ⟨i, target, executes⟩
  · exact .inl (halted s.reports)
  · exact .inr (.inl ⟨n, f, header, stopped s.reports⟩)
  · exact .inr (.inr ⟨i, target, executes s.reports⟩)

/-- Every instruction answers a next state: a fault is taken, not passed on (R71). -/
theorem exec_answers (i : Instr) (s : State) : ∃ t, exec i s = .next t := by
  obtain ⟨r, ends⟩ := exec_eq_finish i s
  cases r with
  | ok t => exact ⟨t, ends⟩
  | error f => exact ⟨faultOf i f s, ends⟩

/-- Settles O41: in each of the ways a step can go it answers. -/
theorem stepAlwaysAnswersNext : Obligations.StepAlwaysAnswersNext := by
  intro s
  rcases step_cases s with halted | ⟨n, f, header, stopped⟩ | ⟨i, target, executes⟩
  · exact ⟨s, halted⟩
  · exact ⟨_, stopped⟩
  · rw [executes]
    exact exec_answers i _

/-! ### What a step changes -/

/-- The flags a step may leave (R23, R129): the same, those a fault leaves, or those an instruction does. -/
def StepFlags (s : State) (f : Flags) : Prop :=
  f = s.flags ∨ f = { s.flags with running := s.flags.running && !s.params.faultHalts } ∨ ∃ i, FlagsAfter i s.flags f

/-- What a step leaves of all but the registers' values, with a fault or without: as `Effect`, but for the report a
fault adds. -/
structure StepLeaves (s t : State) : Prop where
  params : t.params = s.params
  length : t.regs.length = s.regs.length
  reports : t.reports = s.reports ∨ ∃ r, t.reports = r :: s.reports
  mem : Writes s.params.memSize s.mem t.mem
  flags : StepFlags s t.flags

/-- What an instruction in execution leaves: an effect, or a fault taken, which changes flags and reports alone. -/
theorem stepLeaves_of_exec (ends : exec i s = .next t) : StepLeaves s t := by
  rcases exec_cases i s t ends with ⟨f, rfl⟩ | effect
  · exact ⟨rfl, rfl, .inr ⟨_, rfl⟩, .refl _, .inr (.inl rfl)⟩
  · exact ⟨effect.params, effect.length, .inl effect.reports, effect.mem, .inr (.inr ⟨i, effect.flags⟩)⟩

/-- What a step leaves, whichever way it goes; moving PC touches none of it. -/
theorem stepLeaves_of_step (ends : step s = .next t) : StepLeaves s t := by
  rcases step_cases s with halted | ⟨n, f, header, stopped⟩ | ⟨i, target, executes⟩
  · rw [halted] at ends
    cases ends
    exact ⟨rfl, rfl, .inl rfl, .refl _, .inl rfl⟩
  · rw [stopped] at ends
    cases ends
    exact ⟨rfl, setPc_length .., .inr ⟨_, rfl⟩, .refl _, .inr (.inl rfl)⟩
  · rw [executes] at ends
    obtain ⟨params, length, reports, mem, flags⟩ := stepLeaves_of_exec ends
    exact ⟨params, length.trans (setPc_length ..), reports, mem, flags⟩

/-- Settles O42: parameters and reports are two parts of what a step leaves. -/
theorem stepReportsAtMostOneFault : Obligations.StepReportsAtMostOneFault := fun _ _ ends =>
  ⟨(stepLeaves_of_step ends).params, (stepLeaves_of_step ends).reports⟩

/-! ### The invariant -/

/-- Memory is sound exactly where it is canonical and every cell is inside the Memory Image (R26, R35). -/
theorem memSound_iff : s.memSound = true ↔ s.mem.wf = true ∧ ∀ c ∈ s.mem.cells, c.1 < s.params.memSize := by
  simp [State.memSound]

/-- Writes inside the Memory Image keep memory sound. -/
theorem memSound_of_writes (params : t.params = s.params) (writes : Writes s.params.memSize s.mem t.mem)
    (sound : s.memSound = true) : t.memSound = true := by
  obtain ⟨canonical, bounded⟩ := memSound_iff.mp sound
  rw [memSound_iff, params]
  exact writes.sound canonical bounded

/-- At most one comparison flag holds exactly where no two do (R24). -/
theorem atMostOne_iff {f : Flags} :
    f.atMostOne = true ↔ ¬ (f.equals = true ∧ f.less = true) ∧ ¬ (f.equals = true ∧ f.more = true) ∧
      ¬ (f.less = true ∧ f.more = true) := by
  simp [Flags.atMostOne, and_assoc, imp_iff_not_or]

/-- A comparison sets one flag: of two numbers one is less, or they are equal (R84). -/
theorem atMostOne_compareFlags {n : Nat} (a b : BitVec n) (f : Flags) : (compareFlags a b f).atMostOne = true := by
  simp only [atMostOne_iff, compareFlags, decide_eq_true_eq]
  omega

/-- No step sets a second comparison flag: they come from one comparison, or are kept (R23, R24). -/
theorem atMostOne_stepFlags {f : Flags} (allowed : StepFlags s f) (before : s.flags.atMostOne = true) :
    f.atMostOne = true := by
  rcases allowed with rfl | rfl | ⟨i, after⟩
  · exact before
  · exact before
  unfold FlagsAfter at after
  split at after
  next =>
    obtain ⟨n, a, b, rfl⟩ := after
    exact atMostOne_compareFlags a b s.flags
  next =>
    split at after <;> subst after <;> exact before

/-- Settles O46: each part of the invariant follows from what a step leaves. -/
theorem stepKeepsInvariant : Obligations.StepKeepsInvariant := by
  intro s t ⟨regs, mem, flags⟩ ends
  have leaves := stepLeaves_of_step ends
  exact ⟨(regsSound_congr leaves.params leaves.length).trans regs, memSound_of_writes leaves.params leaves.mem mem,
    atMostOne_stepFlags leaves.flags flags⟩

/-- Settles O47: the Register File has the 51 registers of the parameters, memory is empty, no flag is set. -/
theorem resetHasInvariant : Obligations.ResetHasInvariant :=
  ⟨boot_regsSound (by decide), rfl, rfl⟩

end Sys2Proof.StepInvariants
end

section
/-! The step against the decoder and its faults (40_step.md R68, R69, R72), the writers of the flags (10_state.md R23), HLT
(45_halt.md R125), and runs of several steps (40_step.md R76). -/

namespace Sys2Proof.StepRules

open Machine Laws StepFaults StepInvariants InstructionRules

variable {s t : State} {i : Instr}

/-! ### Fetch -/

/-- Settles O39: the fetch goes wrong at the header, at its row or at the trailing field, in this order. -/
theorem fetchFaults : Obligations.FetchFaults := by
  intro s running
  split
  next outside => exact step_of_header_outside running outside
  next inside =>
    have inside := not_not.mp inside
    cases row : headerRow s with
    | none =>
      rw [fetchedLength_eq, row]
      exact step_of_unknown_header running inside row
    | some found =>
      rw [fetchedLength_eq, row]
      intro nonempty outside
      exact step_of_trailing_outside running inside row (not_or.mpr ⟨nonempty, outside⟩)

/-- Bytes that decode to an instruction with none left over are a header and the trailing field its row asks for. -/
theorem row_of_decode {e : Bool} {fam var g : Byte} {field : List Byte}
    (decoded : decode e (fam :: var :: g :: field) = .ok (i, [])) :
    ∃ build, decodeHeader e fam var g = some (field.length, build) ∧ build field = i := by
  cases row : decodeHeader e fam var g with
  | none => simp [decode, row] at decoded
  | some found =>
    obtain ⟨l, build⟩ := found
    by_cases short : field.length < l
    · simp [decode, row, short] at decoded
    obtain ⟨built, none_left⟩ : build (field.take l) = i ∧ field.drop l = [] := by
      simpa [decode, row, short] using decoded
    obtain rfl : field.length = l := (List.drop_eq_nil_iff.mp none_left).antisymm (Nat.not_lt.mp short)
    rw [List.take_length] at built
    exact ⟨build, rfl, built⟩

/-- An encoding is a header of three bytes and the trailing field (R54). -/
theorem encode_length (i : Instr) : (encode i).length = 3 + i.trailing.length :=
  Nat.add_comm i.trailing.length 3

/-- Settles O37: the bytes fetched are those the step fetches, and their number is the length of the encoding. -/
theorem stepRunsDecodedInstruction : Obligations.StepRunsDecodedInstruction := by
  intro s hdr field i running header trailing decoded
  by_cases inside : s.inBounds (s.localEA s.pc) 3
  case neg => simp [State.fetchBytes, inside] at header
  rw [fetchBytes_header inside] at header
  cases header
  obtain ⟨trailingInside, bytes⟩ := fetchBytes_eq_ok.mp trailing
  obtain ⟨build, row, rfl⟩ := row_of_decode (field := field) decoded
  obtain ⟨-, -, -, length⟩ := decodeHeader_build field row
  rw [step_of_fetched running inside row trailingInside, trailingBytes, ← bytes, encode_length, length]

/-! ### Flags -/

/-- Settles O44: the flags an instruction without a fault may leave are those of `FlagsAfter`; a fault clears RUNNING
where `FAULT_HALTS`, and no other flag. -/
theorem flagWriters : Obligations.FlagWriters := by
  intro i s t ends
  rcases exec_cases i s t ends with ⟨f, rfl⟩ | effect
  · refine ⟨fun _ => ⟨rfl, rfl, rfl⟩, fun runs => (Bool.and_eq_true_iff.mp runs).1, fun runs stopped => .inr ⟨?_, ?_⟩⟩
    · simpa [faultOf, runs] using stopped
    · simp [faultOf]
  · have after := effect.flags
    unfold FlagsAfter at after
    split at after
    next arithmetic =>
      obtain ⟨n, a, b, flags⟩ := after
      have running : t.flags.running = s.flags.running := by
        rw [flags]
        rfl
      rw [running]
      refine ⟨?_, id, fun runs stopped => absurd (stopped.symm.trans runs) Bool.false_ne_true⟩
      rintro (other | reporting)
      · exact absurd arithmetic other
      · exact absurd effect.reports reporting
    next =>
      split at after
      next halts =>
        rw [after]
        exact ⟨fun _ => ⟨rfl, rfl, rfl⟩, fun runs => absurd runs Bool.false_ne_true, fun _ _ => .inl halts⟩
      next =>
        rw [after]
        exact ⟨fun _ => ⟨rfl, rfl, rfl⟩, id, fun runs stopped => absurd (stopped.symm.trans runs) Bool.false_ne_true⟩

/-- Settles O36: HLT raises no fault, and its one effect is on RUNNING. -/
theorem hltClearsRunning : Obligations.HltClearsRunning := fun _ _ s =>
  ⟨encodedAs_of_row rfl rfl rfl, { s with flags := { s.flags with running := false } }, rfl, rfl, rfl, fun _ => rfl, rfl,
    rfl, rfl⟩

/-! ### Runs -/

/-- A run of `j + k` steps is one of `j` and then one of `k`. -/
theorem run_add {j : Nat} (first : core.run j s = .next t) (k : Nat) : core.run (j + k) s = core.run k t := by
  induction j generalizing s with
  | zero =>
    cases first
    rw [Nat.zero_add]
  | succ j ih =>
    obtain ⟨u, ends⟩ := stepAlwaysAnswersNext s
    rw [run_succ_of_step ends] at first
    rw [Nat.succ_add_eq_add_succ, Nat.add_succ, run_succ_of_step ends]
    exact ih first

/-- A run of any number of steps answers, and its reports are those before it with some added (R130). -/
theorem run_answers (k : Nat) (s : State) : ∃ t, core.run k s = .next t ∧ s.reports <:+ t.reports := by
  induction k generalizing s with
  | zero => exact ⟨s, rfl, List.suffix_rfl⟩
  | succ k ih =>
    obtain ⟨u, ends⟩ := stepAlwaysAnswersNext s
    obtain ⟨t, runs, grows⟩ := ih u
    refine ⟨t, (run_succ_of_step ends k).trans runs, List.IsSuffix.trans ?_ grows⟩
    rcases (stepLeaves_of_step ends).reports with kept | ⟨r, added⟩
    · rw [kept]
    · rw [added]
      exact List.suffix_cons r s.reports

/-- A run is free of faults exactly where the state it ends in has the reports it began with. -/
theorem faultFreeRun_iff {k : Nat} (runs : core.run k s = .next t) : FaultFreeRun k s ↔ t.reports = s.reports := by
  constructor
  · rintro ⟨t', runs', kept⟩
    cases runs.symm.trans runs'
    exact kept
  · exact fun kept => ⟨t, runs, kept⟩

/-- Settles O48: reports grow along a run, so where the last are the first, so are those between. -/
theorem faultFreeRunsSplit : Obligations.FaultFreeRunsSplit := by
  intro j k s
  obtain ⟨u, first, grows⟩ := run_answers j s
  obtain ⟨t, second, growsOn⟩ := run_answers k u
  have whole : core.run (j + k) s = .next t := (run_add first k).trans second
  rw [faultFreeRun_iff whole, faultFreeRun_iff first]
  constructor
  · intro kept
    rw [kept] at growsOn
    have between : u.reports = s.reports := (grows.eq_of_length_le growsOn.length_le).symm
    refine ⟨between, fun u' first' => ?_⟩
    cases first.symm.trans first'
    exact ⟨t, second, kept.trans between.symm⟩
  · rintro ⟨between, later⟩
    exact ((faultFreeRun_iff second).mp (later u first)).trans between

end Sys2Proof.StepRules
end

section
/-! The operands of an instruction (10_state.md R11; 30_encoding.md R60): those that are not legal are rejected, legal ones
name views of one width, and no operation past the operand checks raises an IllegalInstructionFault (60_exceptions.md
R126). -/

namespace Sys2Proof.LegalOperands

open Machine Laws InstructionRules

variable {s : State} {i : Instr} {id id' id'' : RegId}

/-! ### Operands that are not legal -/

/-- An instruction without register operands has none to reject. -/
theorem rejectsOperands_none (ids : i.operandIds = []) : RejectsOperands i s := by
  constructor
  · intro bad first
    simp [ids] at first
  · intro _ differ
    simp [Instr.widthsAgree, ids] at differ

/-- Every instruction rejects operands that are not legal, one, two or three as it has. -/
theorem rejectsOperands (i : Instr) (s : State) : RejectsOperands i s := by
  cases i with
  | mov | cmp => exact rejectsOperands_two rfl rfl
  | movi | ldl | stl | ldg | stg | push | pop | callr => exact rejectsOperands_one rfl rfl
  | sum => exact Arithmetic.rejectsOperands_of_aluTriple (op := .sum) rfl rfl
  | sub => exact Arithmetic.rejectsOperands_of_aluTriple (op := .sub) rfl rfl
  | mul => exact Arithmetic.rejectsOperands_of_aluTriple (op := .mul) rfl rfl
  | div => exact Arithmetic.rejectsOperands_of_aluTriple (op := .div) rfl rfl
  | idiv => exact Arithmetic.rejectsOperands_of_aluTriple (op := .idiv) rfl rfl
  | pushi128 | pushi64 | pushi32 | pushi16 | pushi8 | je | jne | jl | jb | jle | jbe | call | ret | int | iret | hlt =>
    exact rejectsOperands_none rfl

/-- Every used register id is valid and all their widths agree (R11, R60). -/
def Legal (i : Instr) (s : State) : Prop := i.idsValid s.params.nreg = true ∧ i.widthsAgree = true

/-- Operands that are not legal are an IllegalInstructionFault: an invalid id, else a width that differs. -/
theorem takesFault_of_not_legal (illegal : ¬ Legal i s) : ∃ f, f.code = 1 ∧ TakesFault i f s := by
  obtain ⟨invalid, differ⟩ := rejectsOperands i s
  cases ids : i.idsValid s.params.nreg with
  | true =>
    have widths : i.widthsAgree = false := Bool.eq_false_iff.mpr fun agree => illegal ⟨ids, agree⟩
    exact ⟨_, rfl, differ ids widths⟩
  | false =>
    obtain ⟨id, first⟩ : ∃ id, i.operandIds.find? (fun x => (viewOf s.params.nreg x).isNone) = some id := by
      simpa [Instr.idsValid, ← Option.isSome_iff_exists] using ids
    exact ⟨_, rfl, invalid id first⟩

/-! ### What legal operands name -/

/-- A legal operand names a view. -/
theorem names_of_legal_one (ids : i.operandIds = [id]) (legal : Legal i s) : ∃ v, s.names id v := by
  simpa [Instr.idsValid, ids, Option.isSome_iff_exists] using legal.1

/-- Two legal operands name views of one width. -/
theorem names_of_legal_two (ids : i.operandIds = [id, id']) (legal : Legal i s) :
    ∃ v w, s.names id v ∧ s.names id' w ∧ v.width = w.width := by
  obtain ⟨valid, agree⟩ := legal
  obtain ⟨⟨v, hv⟩, ⟨w, hw⟩⟩ : (∃ v, s.names id v) ∧ ∃ w, s.names id' w := by
    simpa [Instr.idsValid, ids, Option.isSome_iff_exists] using valid
  have widths : regWidth id' = regWidth id := by simpa [Instr.widthsAgree, ids] using agree
  exact ⟨v, w, hv, hw, by rw [viewOf_width hv, viewOf_width hw, widths]⟩

/-- Three legal operands name views of one width. -/
theorem names_of_legal_three (ids : i.operandIds = [id, id', id'']) (legal : Legal i s) :
    ∃ d v w, s.names id d ∧ s.names id' v ∧ s.names id'' w ∧ d.width = v.width ∧ d.width = w.width := by
  obtain ⟨valid, agree⟩ := legal
  obtain ⟨⟨d, hd⟩, ⟨v, hv⟩, ⟨w, hw⟩⟩ : (∃ d, s.names id d) ∧ (∃ v, s.names id' v) ∧ ∃ w, s.names id'' w := by
    simpa [Instr.idsValid, ids, Option.isSome_iff_exists] using valid
  obtain ⟨first, second⟩ : regWidth id' = regWidth id ∧ regWidth id'' = regWidth id := by
    simpa [Instr.widthsAgree, ids] using agree
  exact ⟨d, v, w, hd, hv, hw, by rw [viewOf_width hd, viewOf_width hv, first],
    by rw [viewOf_width hd, viewOf_width hw, second]⟩

/-! ### Faults past the operand checks -/

section Raises

variable {α β : Type} {ea : Addr} {n : Nat} {v : BitVec (8 * n)} {is : List Nat}

/-- Any fault of it is a MemoryFault or an ArithmeticFault, no IllegalInstructionFault (R126). -/
def RaisesNoIllegal (r : Except Fault α) : Prop := ∀ f, r = .error f → f.code ≠ 1

theorem raisesNoIllegal_ok {a : α} : RaisesNoIllegal (.ok a) := fun _ raised => nomatch raised

/-- What is done in two parts raises what a part raises. -/
theorem raisesNoIllegal_bind {x : Except Fault α} {next : α → Except Fault β} (first : RaisesNoIllegal x)
    (second : ∀ a, RaisesNoIllegal (next a)) : RaisesNoIllegal (x >>= next) := by
  intro f raised
  cases x with
  | ok a => exact second a f raised
  | error e => exact first f (by cases raised; rfl)

theorem raisesNoIllegal_memRead : RaisesNoIllegal (s.memRead ea n) := by
  intro f raised
  obtain ⟨-, rfl⟩ := memRead_eq_error.mp raised
  exact (by decide : 2 ≠ 1)

theorem raisesNoIllegal_memWrite : RaisesNoIllegal (s.memWrite ea n v) := by
  intro f raised
  obtain ⟨-, rfl⟩ := memWrite_eq_error.mp raised
  exact (by decide : 2 ≠ 1)

theorem raisesNoIllegal_push : RaisesNoIllegal (s.push n v) :=
  raisesNoIllegal_bind raisesNoIllegal_memWrite fun _ => raisesNoIllegal_ok

theorem raisesNoIllegal_pop : RaisesNoIllegal (s.pop n) :=
  raisesNoIllegal_bind raisesNoIllegal_memRead fun _ => raisesNoIllegal_ok

theorem raisesNoIllegal_pushRegs : RaisesNoIllegal (s.pushRegs is) := by
  induction is generalizing s with
  | nil => exact raisesNoIllegal_ok
  | cons i is ih => exact raisesNoIllegal_bind raisesNoIllegal_push fun _ => ih

theorem raisesNoIllegal_popRegs : RaisesNoIllegal (s.popRegs is) := by
  induction is generalizing s with
  | nil => exact raisesNoIllegal_ok
  | cons i is ih => exact raisesNoIllegal_bind raisesNoIllegal_pop fun _ => ih

theorem raisesNoIllegal_callTo : RaisesNoIllegal (callTo ea s) :=
  raisesNoIllegal_bind raisesNoIllegal_push fun _ => raisesNoIllegal_ok

theorem raisesNoIllegal_trapEnter {id : Byte} : RaisesNoIllegal (trapEnter id s) :=
  raisesNoIllegal_bind raisesNoIllegal_pushRegs fun _ =>
    raisesNoIllegal_bind raisesNoIllegal_memRead fun _ => raisesNoIllegal_ok

/-- The ALU faults by zero alone (R89, R90). -/
theorem raisesNoIllegal_aluApply {op : AluOp} {a b : BitVec n} : RaisesNoIllegal (aluApply op a b) := by
  intro f raised
  cases op with
  | sum | sub | mul => cases raised
  | div | idiv =>
    simp only [aluApply, divide, signedDivide] at raised
    split at raised <;> cases raised
    decide

end Raises

/-- A triple of legal operands raises no more than its ALU call. -/
theorem raisesNoIllegal_aluTriple {op : AluOp} (ids : i.operandIds = [id, id', id'']) (legal : Legal i s) :
    RaisesNoIllegal (aluTriple op id id' id'' s) := by
  obtain ⟨d, v, w, hd, hv, hw, widths, widths'⟩ := names_of_legal_three ids legal
  rw [Arithmetic.aluTriple_of_legal hd hv hw widths widths']
  exact raisesNoIllegal_bind raisesNoIllegal_aluApply fun _ => raisesNoIllegal_ok

/-- A single legal operand is accepted, so what follows alone can raise a fault. -/
theorem raisesNoIllegal_operand {next : View → Except Fault State} (ids : i.operandIds = [id]) (legal : Legal i s)
    (rest : ∀ v, RaisesNoIllegal (next v)) : RaisesNoIllegal (operand s.params.nreg id >>= next) := by
  obtain ⟨v, hv⟩ := names_of_legal_one ids legal
  rw [operand_bind_of_names hv]
  exact rest v

/-- Two legal operands are accepted, so what follows alone can raise a fault. -/
theorem raisesNoIllegal_operands {next : View → View → Unit → Except Fault State} (ids : i.operandIds = [id, id'])
    (legal : Legal i s) (rest : ∀ v w, RaisesNoIllegal (next v w ())) :
    RaisesNoIllegal (do
      let v ← operand s.params.nreg id
      let w ← operand s.params.nreg id'
      sameWidth v w >>= next v w) := by
  obtain ⟨v, w, hv, hw, widths⟩ := names_of_legal_two ids legal
  rw [operand_bind_of_names hv, operand_bind_of_names hw, sameWidth_bind_of_eq widths]
  exact rest v w

/-- A load of a legal operand raises no more than its read (R79, R81). -/
theorem raisesNoIllegal_loadView {ea : Addr} (ids : i.operandIds = [id]) (legal : Legal i s) :
    RaisesNoIllegal (loadView s id ea) :=
  raisesNoIllegal_operand ids legal fun _ => raisesNoIllegal_bind raisesNoIllegal_memRead fun _ => raisesNoIllegal_ok

/-- A store of a legal operand raises no more than its write (R80, R82). -/
theorem raisesNoIllegal_storeView {ea : Addr} (ids : i.operandIds = [id]) (legal : Legal i s) :
    RaisesNoIllegal (storeView s id ea) :=
  raisesNoIllegal_operand ids legal fun _ => raisesNoIllegal_memWrite

end Sys2Proof.LegalOperands
end

section
/-! The effect each instruction hands to `finish`: it ignores the fault reports, which so influence no later step
(10_state.md R30), and on legal operands it raises no IllegalInstructionFault (60_exceptions.md R126). -/

namespace Sys2Proof.InstructionEffects

open Machine Laws StepFaults StepInvariants LegalOperands

variable {s t : State} {i : Instr}

/-- States that differ in the reports at most are one state with two histories (R30). -/
theorem sameArch_iff : s.SameArch t ↔ ∃ rs, t = withReports s rs := by
  constructor
  · rintro ⟨regs, flags, mem, params⟩
    obtain ⟨regs', flags', mem', params', rs⟩ := t
    exact ⟨rs, by simp_all [withReports]⟩
  · rintro ⟨rs, rfl⟩
    exact ⟨rfl, rfl, rfl, rfl⟩

/-! ### Operations -/

/-- An effect answers as it would with other reports, which it hands on as they are. -/
def IgnoresReports (effect : State → Except Fault State) : Prop :=
  ∀ s rs, effect (withReports s rs) = (withReports · rs) <$> effect s

section Operations

variable (s : State) (rs : List FaultReport)

/-- The parameters are not among the reports. -/
@[simp] theorem withReports_params : (withReports s rs).params = s.params := rfl

/-- A read of memory sees no report (R36). -/
@[simp] theorem memRead_withReports (ea : Addr) (n : Nat) : (withReports s rs).memRead ea n = s.memRead ea n := rfl

/-- A write to memory sees no report (R37). -/
@[simp] theorem memWrite_withReports (ea : Addr) (n : Nat) (v : BitVec (8 * n)) :
    (withReports s rs).memWrite ea n v = (withReports · rs) <$> s.memWrite ea n v := by
  by_cases inside : s.inBounds ea n
  · rw [memWrite_eq_ok.mpr ⟨inside, rfl⟩, memWrite_eq_ok.mpr ⟨show (withReports s rs).inBounds ea n from inside, rfl⟩]
    rfl
  · rw [memWrite_eq_error.mpr ⟨inside, rfl⟩,
      memWrite_eq_error.mpr ⟨show ¬ (withReports s rs).inBounds ea n from inside, rfl⟩]
    rfl

/-- A push sees no report (R98). -/
@[simp] theorem push_withReports (n : Nat) (v : BitVec (8 * n)) :
    (withReports s rs).push n v = (withReports · rs) <$> s.push n v := by
  simp only [State.push, memWrite_withReports, map_bind, bind_map_left]
  rfl

/-- A pop sees no report (R99). -/
@[simp] theorem pop_withReports (n : Nat) :
    (withReports s rs).pop n = (Prod.map id (withReports · rs)) <$> s.pop n := by
  simp only [State.pop, memRead_withReports, map_bind]
  rfl

/-- Pushing registers sees no report (R122). -/
@[simp] theorem pushRegs_withReports (is : List Nat) :
    (withReports s rs).pushRegs is = (withReports · rs) <$> s.pushRegs is := by
  induction is generalizing s with
  | nil => rfl
  | cons i is ih =>
    have read : (withReports s rs).reg i = s.reg i := rfl
    simp only [State.pushRegs, read, push_withReports, map_bind, bind_map_left, ih]

/-- Popping registers sees no report (R123). -/
@[simp] theorem popRegs_withReports (is : List Nat) :
    (withReports s rs).popRegs is = (withReports · rs) <$> s.popRegs is := by
  induction is generalizing s with
  | nil => rfl
  | cons i is ih =>
    have set (u : State) (v : Word) : (withReports u rs).setReg i v = withReports (u.setReg i v) rs := rfl
    simp only [State.popRegs, pop_withReports, map_bind, bind_map_left, Prod.map, id, set, ih]

end Operations

/-! ### Shared shapes of instructions -/

theorem loadView_ignoresReports (d : RegId) (ea : State → Addr) (same : ∀ s rs, ea (withReports s rs) = ea s) :
    IgnoresReports fun s => loadView s d (ea s) := by
  intro s rs
  simp only [loadView, same, withReports_params, memRead_withReports, map_bind]
  rfl

theorem storeView_ignoresReports (r : RegId) (ea : State → Addr) (same : ∀ s rs, ea (withReports s rs) = ea s) :
    IgnoresReports fun s => storeView s r (ea s) := by
  intro s rs
  simp only [storeView, same, withReports_params, memWrite_withReports, map_bind]
  rfl

theorem aluTriple_ignoresReports (op : AluOp) (d a b : RegId) : IgnoresReports (aluTriple op d a b) := by
  intro s rs
  simp only [aluTriple, withReports_params, map_bind]
  rfl

theorem push_ignoresReports (n : Nat) (v : BitVec (8 * n)) : IgnoresReports (·.push n v) :=
  fun s rs => push_withReports s rs n v

theorem jumpIf_ignoresReports (cond : Flags → Bool) (target : Addr) :
    IgnoresReports fun s => .ok (jumpIf (cond s.flags) target s) := by
  intro s rs
  show Except.ok (jumpIf (cond s.flags) target (withReports s rs)) =
    .ok (withReports (jumpIf (cond s.flags) target s) rs)
  cases cond s.flags <;> rfl

theorem callTo_ignoresReports (target : State → Addr) (same : ∀ s rs, target (withReports s rs) = target s) :
    IgnoresReports fun s => callTo (target s) s := by
  intro s rs
  have pc : (withReports s rs).pc = s.pc := rfl
  simp only [callTo, same, pc, push_withReports, map_bind, bind_map_left]
  rfl

theorem trapEnter_ignoresReports (id : Byte) : IgnoresReports (trapEnter id) := by
  intro s rs
  have regs : (withReports s rs).allRegs = s.allRegs := rfl
  have vector : (withReports s rs).vectorAddr id = s.vectorAddr id := rfl
  simp only [trapEnter, regs, vector, pushRegs_withReports, map_bind, bind_map_left]
  rfl

/-! ### Instructions -/

/-- Every instruction ends in an effect that ignores the reports and, on legal operands, raises no
IllegalInstructionFault. -/
theorem exec_effect (i : Instr) :
    ∃ effect, (∀ s, exec i s = finish i s (effect s)) ∧ IgnoresReports effect ∧
      ∀ s, Legal i s → RaisesNoIllegal (effect s) := by
  cases i with
  | mov d a =>
    refine ⟨_, fun _ => rfl, fun s rs => ?_, fun s legal =>
      raisesNoIllegal_operands rfl legal fun _ _ => raisesNoIllegal_ok⟩
    simp only [withReports_params, map_bind]
    rfl
  | movi d imm =>
    refine ⟨_, fun _ => rfl, fun s rs => ?_, fun s legal =>
      raisesNoIllegal_operand rfl legal fun _ => raisesNoIllegal_ok⟩
    simp only [withReports_params, map_bind]
    rfl
  | ldl d a =>
    exact ⟨_, fun _ => rfl, loadView_ignoresReports d (·.localEA a) fun _ _ => rfl,
      fun _ => raisesNoIllegal_loadView rfl⟩
  | ldg d a =>
    exact ⟨_, fun _ => rfl, loadView_ignoresReports d (fun _ => a) fun _ _ => rfl,
      fun _ => raisesNoIllegal_loadView rfl⟩
  | stl r a =>
    exact ⟨_, fun _ => rfl, storeView_ignoresReports r (·.localEA a) fun _ _ => rfl,
      fun _ => raisesNoIllegal_storeView rfl⟩
  | stg r a =>
    exact ⟨_, fun _ => rfl, storeView_ignoresReports r (fun _ => a) fun _ _ => rfl,
      fun _ => raisesNoIllegal_storeView rfl⟩
  | sum d a b | sub d a b | mul d a b | div d a b | idiv d a b =>
    exact ⟨_, fun _ => rfl, aluTriple_ignoresReports _ d a b, fun _ => raisesNoIllegal_aluTriple rfl⟩
  | cmp a b =>
    refine ⟨_, fun _ => rfl, fun s rs => ?_, fun s legal => raisesNoIllegal_operands rfl legal fun _ _ =>
      raisesNoIllegal_bind raisesNoIllegal_aluApply fun _ => raisesNoIllegal_ok⟩
    simp only [withReports_params, map_bind]
    rfl
  | push r =>
    refine ⟨_, fun _ => rfl, fun s rs => ?_, fun s legal =>
      raisesNoIllegal_operand rfl legal fun _ => raisesNoIllegal_push⟩
    simp only [withReports_params, push_withReports, map_bind]
    rfl
  | pop d =>
    refine ⟨_, fun _ => rfl, fun s rs => ?_, fun s legal => raisesNoIllegal_operand rfl legal fun _ =>
      raisesNoIllegal_bind raisesNoIllegal_pop fun _ => raisesNoIllegal_ok⟩
    simp only [withReports_params, pop_withReports, map_bind, bind_map_left]
    rfl
  | pushi128 g v => exact ⟨_, fun _ => rfl, push_ignoresReports 16 v, fun _ _ => raisesNoIllegal_push⟩
  | pushi64 g v => exact ⟨_, fun _ => rfl, push_ignoresReports 8 v, fun _ _ => raisesNoIllegal_push⟩
  | pushi32 g v => exact ⟨_, fun _ => rfl, push_ignoresReports 4 v, fun _ _ => raisesNoIllegal_push⟩
  | pushi16 g v => exact ⟨_, fun _ => rfl, push_ignoresReports 2 v, fun _ _ => raisesNoIllegal_push⟩
  | pushi8 g v => exact ⟨_, fun _ => rfl, push_ignoresReports 1 v, fun _ _ => raisesNoIllegal_push⟩
  | je g a => exact ⟨_, fun _ => rfl, jumpIf_ignoresReports condJe a, fun _ _ => raisesNoIllegal_ok⟩
  | jne g a => exact ⟨_, fun _ => rfl, jumpIf_ignoresReports condJne a, fun _ _ => raisesNoIllegal_ok⟩
  | jl g a => exact ⟨_, fun _ => rfl, jumpIf_ignoresReports condJl a, fun _ _ => raisesNoIllegal_ok⟩
  | jb g a => exact ⟨_, fun _ => rfl, jumpIf_ignoresReports condJb a, fun _ _ => raisesNoIllegal_ok⟩
  | jle g a => exact ⟨_, fun _ => rfl, jumpIf_ignoresReports condJle a, fun _ _ => raisesNoIllegal_ok⟩
  | jbe g a => exact ⟨_, fun _ => rfl, jumpIf_ignoresReports condJbe a, fun _ _ => raisesNoIllegal_ok⟩
  | call g a =>
    exact ⟨_, fun _ => rfl, callTo_ignoresReports (fun _ => a) fun _ _ => rfl, fun _ _ => raisesNoIllegal_callTo⟩
  | callr r =>
    refine ⟨_, fun _ => rfl, fun s rs => ?_, fun s legal => raisesNoIllegal_operand rfl legal fun _ =>
      raisesNoIllegal_callTo⟩
    simp only [withReports_params, map_bind]
    refine congrArg _ (funext fun v => ?_)
    exact callTo_ignoresReports (fun s => ((s.readView v).setWidth 128).setWidth 64) (fun _ _ => rfl) s rs
  | ret g =>
    refine ⟨_, fun _ => rfl, fun s rs => ?_, fun _ _ =>
      raisesNoIllegal_bind raisesNoIllegal_pop fun _ => raisesNoIllegal_ok⟩
    simp only [pop_withReports, map_bind, bind_map_left]
    rfl
  | int g id => exact ⟨_, fun _ => rfl, trapEnter_ignoresReports id, fun _ _ => raisesNoIllegal_trapEnter⟩
  | iret g =>
    exact ⟨_, fun _ => rfl, fun s rs => popRegs_withReports s rs s.allRegs.reverse, fun _ _ => raisesNoIllegal_popRegs⟩
  | hlt var g =>
    exact ⟨fun s => .ok { s with flags := { s.flags with running := false } }, fun _ => rfl, fun _ _ => rfl,
      fun _ _ => raisesNoIllegal_ok⟩

/-- An instruction leads from a state with other reports to the same state but for the reports (R30). -/
theorem exec_sameArch (same : s.SameArch t) {s' t' : State} (hs : exec i s = .next s') (ht : exec i t = .next t') :
    s'.SameArch t' := by
  obtain ⟨rs, rfl⟩ := sameArch_iff.mp same
  obtain ⟨effect, ends, ignores, -⟩ := exec_effect i
  rw [ends] at hs ht
  rw [ignores] at ht
  cases answer : effect s with
  | ok u =>
    rw [answer] at hs ht
    cases hs
    cases ht
    exact ⟨rfl, rfl, rfl, rfl⟩
  | error f =>
    rw [answer] at hs ht
    cases hs
    cases ht
    exact ⟨rfl, rfl, rfl, rfl⟩

/-! ### The step -/

/-- Settles O45: whichever way the step goes, it goes so with any reports. -/
theorem reportsInfluenceNothing : Obligations.ReportsInfluenceNothing := by
  intro s t s' t' same hs ht
  obtain ⟨rs, rfl⟩ := sameArch_iff.mp same
  change step (withReports s s.reports) = .next s' at hs
  rcases step_cases_withReports s with halted | ⟨n, f, header, stopped⟩ | ⟨i, target, executes⟩
  · rw [halted] at hs ht
    cases hs
    cases ht
    exact same
  · rw [stopped] at hs ht
    cases hs
    cases ht
    exact ⟨rfl, rfl, rfl, rfl⟩
  · rw [executes] at hs ht
    exact exec_sameArch (s := s.setPc target) (t := (withReports s rs).setPc target) ⟨rfl, rfl, rfl, rfl⟩ hs ht

/-! ### Illegal instructions -/

/-- An effect that ignores the reports and answers hands them on as they were: it has them from its state alone. -/
theorem reports_of_ignoresReports {effect : State → Except Fault State} (ignores : IgnoresReports effect)
    (answers : effect s = .ok t) : t.reports = s.reports := by
  have same : effect s = (withReports · s.reports) <$> effect s := ignores s s.reports
  rw [answers] at same
  have handed : t = withReports t s.reports := Except.ok.inj same
  rw [handed]
  rfl

/-- Settles O43: operands that are not legal are such a fault; on legal ones a report is of another fault. -/
theorem illegalInstructionExactly : Obligations.IllegalInstructionExactly := by
  intro i s t ends
  constructor
  · rintro ⟨r, reported, code⟩ legal
    obtain ⟨effect, meaning, ignores, raises⟩ := exec_effect i
    rw [meaning] at ends
    rcases finish_eq_next.mp ends with answers | ⟨f, faults, rfl⟩
    · rw [reports_of_ignoresReports ignores answers] at reported
      exact List.cons_ne_self r s.reports reported.symm
    · obtain ⟨rfl, -⟩ := List.cons.inj reported
      exact raises s legal f faults code
  · intro illegal
    obtain ⟨f, code, t', faulted, -, -, -, -, reports⟩ := takesFault_of_not_legal illegal
    cases ends.symm.trans faulted
    exact ⟨_, reports, code⟩

end Sys2Proof.InstructionEffects
end

section
/-! Signed division (42_arithmetic.md R90, R97): the quotient of magnitudes, negated where one operand was negative, is the
integer quotient rounded toward zero. And the comparison flag any instruction of family 0x01 leaves (10_state.md R24). -/

namespace Sys2Proof.SignedDivision

open Machine Laws InstructionRules Arithmetic

/-! ### Magnitudes -/

section Division

variable {n : Nat} (a b : BitVec n)

/-- A word read as two's complement is its magnitude with the sign of its top bit (R90). -/
theorem toInt_eq_magnitude : a.toInt = if a.msb then -(magnitude a : Int) else (magnitude a : Int) := by
  rw [BitVec.toInt_eq_msb_cond, magnitude]
  split
  · rw [Nat.cast_sub a.isLt.le]
    push_cast
    omega
  · rfl

/-- A magnitude is at most `2^n`. -/
theorem magnitude_le : magnitude a ≤ 2 ^ n := by
  rw [magnitude]
  split
  · exact Nat.sub_le ..
  · exact a.isLt.le

/-- The integer quotient of two words rounded toward zero is that of their magnitudes, negated where exactly one is
negative. -/
theorem tdiv_eq_magnitude :
    a.toInt.tdiv b.toInt =
      if a.msb != b.msb then -((magnitude a / magnitude b : Nat) : Int)
      else ((magnitude a / magnitude b : Nat) : Int) := by
  rw [toInt_eq_magnitude a, toInt_eq_magnitude b]
  cases a.msb <;> cases b.msb <;> simp [Int.neg_tdiv, Int.tdiv_neg]

/-- A number up to `2^n`, negated in `n` bits, is its negative modulo `2^n`. -/
theorem toNat_ofNat_negated {q : Nat} (fits : q ≤ 2 ^ n) :
    (BitVec.ofNat n (2 ^ n - q)).toNat = (-(q : Int) % (2 ^ n : Int)).toNat := by
  have wraps : ((2 ^ n - q : Nat) : Int) % 2 ^ n = -(q : Int) % 2 ^ n := by
    rw [Nat.cast_sub fits, Nat.cast_pow, Nat.cast_ofNat, sub_eq_add_neg, Int.add_emod_left]
  rw [BitVec.toNat_ofNat, ← wraps]
  norm_cast

/-- The ALU's signed quotient, as an integer quotient wrapped to the width (R90, R97). -/
def signedQuotient : BitVec n :=
  BitVec.ofNat n (if a.msb != b.msb then 2 ^ n - magnitude a / magnitude b else magnitude a / magnitude b)

/-- The signed quotient is the integer quotient rounded toward zero, wrapped to the width. -/
theorem signedQuotient_toNat : (signedQuotient a b).toNat = (a.toInt.tdiv b.toInt % (2 ^ n : Int)).toNat := by
  rw [tdiv_eq_magnitude, signedQuotient]
  split
  · exact toNat_ofNat_negated ((Nat.div_le_self ..).trans (magnitude_le a))
  · rw [BitVec.toNat_ofNat]
    norm_cast

/-- Signed division by zero is ArithmeticFault (R90). -/
theorem signedDivide_of_zero (zero : b.toNat = 0) : signedDivide a b = .error .divideByZero := if_pos zero

/-- Signed division by another number gives the signed quotient (R90). -/
theorem signedDivide_of_ne_zero (nonzero : b.toNat ≠ 0) : signedDivide a b = .ok (signedQuotient a b) := if_neg nonzero

end Division

/-- Settles O19: as DIV, with the signed quotient; where IDIV is not enabled its header has no row. -/
theorem idivTruncatesTowardZero : Obligations.IdivTruncatesTowardZero := by
  intro dest src1 src2 s sound
  refine ⟨encodedAs_of_row rfl rfl rfl, fun _ => rfl, rejectsOperands_of_aluTriple (op := .idiv) rfl rfl,
    fun d v1 v2 hd h1 h2 w1 w2 => ?_⟩
  split
  next zero => exact takesFault_of_alu (op := .idiv) hd h1 h2 w1 w2 rfl (signedDivide_of_zero _ _ zero)
  next nonzero =>
    exact exec_aluDone (op := .idiv) hd h1 h2 w1 w2 rfl sound (signedDivide_of_ne_zero _ _ nonzero)
      (signedQuotient_toNat ..)

/-- A comparison sets exactly one flag: one of the numbers is less, or they are equal (R24, R84). -/
theorem compareFlags_exactlyOne {n : Nat} (a b : BitVec n) (f : Flags) :
    (compareFlags a b f).less.toNat + (compareFlags a b f).equals.toNat + (compareFlags a b f).more.toNat = 1 := by
  rcases Nat.lt_trichotomy a.toNat b.toNat with less | equal | more
  · simp [compareFlags, less, less.ne, less.le]
  · simp [compareFlags, equal]
  · simp [compareFlags, more, more.ne', more.le]

/-- Settles O21: without a report an arithmetic instruction has had its effect, whose flags are those of a comparison. -/
theorem aluLeavesExactlyOneFlag : Obligations.AluLeavesExactlyOneFlag := by
  intro i s t arithmetic ends unreported
  rcases exec_cases i s t ends with ⟨f, rfl⟩ | effect
  · exact absurd unreported (List.cons_ne_self _ _)
  · have after := effect.flags
    rw [FlagsAfter, if_pos arithmetic] at after
    obtain ⟨n, a, b, flags⟩ := after
    rw [flags]
    exact ⟨compareFlags_exactlyOne a b s.flags, rfl⟩

end Sys2Proof.SignedDivision
end

section
/-! What is stored and read back: a value in memory (20_memory.md R41), a view pushed and popped (43_stack.md R102), and a
return address called with and returned to (44_control.md R118, R120). -/

namespace Sys2Proof.RoundTrips

open Machine Laws InstructionRules

variable {s t u : State} {ea n k : Nat} {v : BitVec (8 * n)}

/-! ### A value held in memory -/

/-- Bits of memory that holds a value are the value's (R37, R39). -/
theorem memBit_of_memHolds (holds : MemHolds t ea n v) (hk : k < 8 * n) : memBit t ea k = v.getLsbD k := by
  have inByte : k % 8 < 8 := Nat.mod_lt k (by decide)
  rw [memBit, holds (k / 8) (by omega), BitVec.getLsbD_extractLsb', Nat.div_add_mod]
  simp [inByte]

/-- The value read where memory holds a value is that value (R36, R37). -/
theorem readValue_of_memHolds (holds : MemHolds t ea n v) :
    BitVec.ofNat (8 * n) (leNat (t.mem.readBytes ea n)) = v := by
  apply BitVec.eq_of_getLsbD_eq
  intro k hk
  rw [readValue_getLsbD t.mem ea n k hk]
  exact memBit_of_memHolds holds hk

/-- Memory that reads alike in the bytes of a value holds it too. -/
theorem memHolds_congr (holds : MemHolds t ea n v) (same : ∀ k, k < n → u.mem.read (ea + k) = t.mem.read (ea + k)) :
    MemHolds u ea n v := fun k hk => (same k hk).trans (holds k hk)

/-- Settles O10: a store keeps the bounds and leaves memory that holds the value. -/
theorem storeThenLoadReturnsValue : Obligations.StoreThenLoadReturnsValue := by
  intro s t ea n v hw stored
  obtain ⟨inside, rfl⟩ := memWrite_eq_ok.mp stored
  exact memRead_eq_ok.mpr ⟨inside, (readValue_of_memHolds (MemoryAccess.memHolds_of_written hw rfl)).symm⟩

/-! ### Address views -/

/-- The address view of a register whose address was replaced is the new address (R18). -/
theorem addr_of_withAddr {i : Nat} {w : Word} {a : Addr} (holds : t.reg i = withAddr w a) : t.addr i = a := by
  rw [State.addr, holds]
  exact setWidth_append ..

/-- Bits of a register with its address replaced (R18). -/
theorem withAddr_getLsbD (w : Word) (a : Addr) (k : Nat) :
    (withAddr w a).getLsbD k = if k < 64 then a.getLsbD k else w.getLsbD k := by
  rw [withAddr, ← spliceLow_addr, spliceLow_getLsbD]
  split
  next low => simp [show k < 128 by omega]
  next => rfl

/-- The last of two addresses put in a register is the one it holds. -/
theorem withAddr_withAddr (w : Word) (a b : Addr) : withAddr (withAddr w a) b = withAddr w b := by
  apply BitVec.eq_of_getLsbD_eq
  intro k hk
  simp only [withAddr_getLsbD]
  split <;> rfl

/-- A register with its own address put in it is as it was. -/
theorem withAddr_setWidth (w : Word) : withAddr w (w.setWidth 64) = w := by
  apply BitVec.eq_of_getLsbD_eq
  intro k hk
  rw [withAddr_getLsbD]
  split
  next low => simp [low]
  next => rfl

/-- Local addresses of states with one LO are the same (R33). -/
theorem localEA_congr (params : t.params = s.params) (lo : t.addr s.params.loIdx = s.addr s.params.loIdx) (a : Addr) :
    t.localEA a = s.localEA a := by
  rw [State.localEA, State.localEA, params, lo]

/-- A pop with SP below where it was by as much as a push moves it, and LO as it was, reads the slot of that push (R98,
R99). -/
theorem popSlot_eq_pushSlot (params : t.params = s.params) (lo : t.addr s.params.loIdx = s.addr s.params.loIdx)
    (sp : t.addr s.params.spIdx = s.addr s.params.spIdx - BitVec.ofNat 64 n) : popSlot t = pushSlot s n := by
  rw [popSlot, params, sp, localEA_congr params lo, pushSlot]

/-- Registers kept but for some are kept in their address views too. -/
theorem addr_of_sameRegsBut {P : Nat → Prop} (kept : SameRegsBut s t P) {i : Nat} (other : ¬ P i) : t.addr i = s.addr i :=
  congrArg (BitVec.setWidth 64) (kept i other)

/-! ### POP -/

/-- The state in which a pop of `n` bytes has moved SP (R99). -/
def poppedSp (s : State) (n : Nat) : State := s.setAddr s.params.spIdx (s.addr s.params.spIdx + BitVec.ofNat 64 n)

/-- The value a pop of `n` bytes gives (R99). -/
def poppedValue (s : State) (n : Nat) : BitVec (8 * n) :=
  BitVec.ofNat (8 * n) (leNat (s.mem.readBytes (popSlot s).toNat n))

/-- A pop in bounds gives the value at SP and moves SP (R99). -/
theorem pop_of_inside (inside : s.inBounds (popSlot s) n) : s.pop n = .ok (poppedValue s n, poppedSp s n) :=
  pop_eq_ok.mpr ⟨inside, rfl, rfl⟩

/-- A pop out of bounds is MemoryFault at SP's local address (R99). -/
theorem pop_of_outside (outside : ¬ s.inBounds (popSlot s) n) : s.pop n = .error (.memory (popSlot s)) :=
  pop_eq_error.mpr ⟨outside, rfl⟩

/-- What a pop leaves in each register: SP has moved, its upper half kept (R99). -/
theorem poppedSp_reg (sound : s.regsSound = true) (n j : Nat) :
    (poppedSp s n).reg j =
      if j = s.params.spIdx then withAddr (s.reg s.params.spIdx) (s.addr s.params.spIdx + BitVec.ofNat 64 n)
      else s.reg j :=
  setAddr_reg s j _ (spIdx_lt sound)

/-- Settles O23: SP moves, then the destination view is written over the registers as they are then. -/
theorem popLoadsView : Obligations.PopLoadsView := by
  intro dest s sound
  refine ⟨encodedAs_of_row rfl rfl rfl, rejectsOperands_one rfl rfl, fun d hd => ?_⟩
  split
  next inside =>
    have destination : d.reg < (poppedSp s d.width.bytes).regs.length :=
      (names_lt sound hd).trans_eq (setAddr_length ..).symm
    refine ⟨(poppedSp s d.width.bytes).writeView d (poppedValue s d.width.bytes), finish_eq_next.mpr (.inl ?_),
      fun j k => ?_, fun _ => rfl, rfl, rfl, (writeView_length ..).trans (setAddr_length ..), rfl⟩
    · rw [operand_bind_of_names hd, pop_of_inside inside]
      rfl
    · rw [writeView_getLsbD _ _ j k destination, poppedSp_reg sound]
      split
      next bit => exact readValue_getLsbD s.mem (popSlot s).toNat d.width.bytes k bit.2
      next => split <;> rfl
  next outside =>
    refine takesFault_of_error rfl ?_
    rw [operand_bind_of_names hd, pop_of_outside outside]
    rfl

/-- Settles O25: the pop reads the slot of the push, and moves SP back by as much. -/
theorem pushThenPopRestores : Obligations.PushThenPopRestores := by
  intro src dest r d s sound hw hr hd widths notSp inside
  obtain ⟨-, -, pushesView⟩ := StackPushes.pushStoresView src s sound hw
  have pushes := pushesView r hr
  rw [if_pos inside] at pushes
  obtain ⟨t, pushed, ⟨sp, slot, -, -, params, length, reports⟩, kept⟩ := pushes
  have slots : popSlot t = pushSlot s r.width.bytes :=
    popSlot_eq_pushSlot params (addr_of_sameRegsBut kept (loIdx_ne_spIdx sound)) (addr_of_withAddr sp)
  have hd' : t.names dest d := by rwa [State.names, params]
  obtain ⟨-, -, popsView⟩ := popLoadsView dest t ((regsSound_congr params length).trans sound)
  have pops := popsView d hd'
  rw [slots, params, ← widths, if_pos inside] at pops
  obtain ⟨u, popped, bits, -, -, paramsU, lengthU, reportsU⟩ := pops
  have restored : ∀ j, j ≠ d.reg → u.reg j = s.reg j := by
    intro j other
    have after : u.reg j = if j = s.params.spIdx then
        withAddr (t.reg s.params.spIdx) (t.addr s.params.spIdx + BitVec.ofNat 64 r.width.bytes) else t.reg j := by
      apply BitVec.eq_of_getLsbD_eq
      intro k hk
      rw [bits, if_neg fun h => other h.1]
      split <;> rfl
    rw [after]
    split
    next isSp =>
      rw [addr_of_withAddr sp, BitVec.sub_add_cancel, sp, withAddr_withAddr, isSp]
      exact withAddr_setWidth _
    next notSp => exact kept j notSp
  refine ⟨t, u, pushed, popped, Nat.eq_of_testBit_eq fun k => ?_, restored _ notSp.symm, restored,
    paramsU.trans params, lengthU.trans length, reportsU.trans reports⟩
  rw [BitVec.testBit_toNat, BitVec.testBit_toNat, RegisterViews.readView_getLsbD, bits, ← widths]
  by_cases hk : k < r.width.bits
  · rw [if_pos ⟨rfl, hk⟩, memBit_of_memHolds slot hk]
    simp [hk]
  · simp [hk, RegisterViews.readView_getLsbD]

/-! ### Calls -/

/-- A view's value cut or extended to 64 bits is its number modulo `2^64`. -/
theorem setWidth_address (s : State) (v : View) :
    ((s.readView v).setWidth 128).setWidth 64 = BitVec.ofNat 64 (s.readView v).toNat := by
  apply BitVec.eq_of_toNat_eq
  simp only [BitVec.toNat_setWidth, BitVec.toNat_ofNat]
  exact Nat.mod_mod_of_dvd _ (by decide)

/-- Settles O28: past its operand check CALLR is one call to the view's value. -/
theorem callrCallsRegister : Obligations.CallrCallsRegister := by
  intro r s sound hw
  refine ⟨encodedAs_of_row rfl rfl rfl, rejectsOperands_one rfl rfl, fun v hv => ?_⟩
  rw [← setWidth_address]
  exact ControlTransfers.calls_or_faults sound hw (congrArg (finish (.callr r) s) (operand_bind_of_names hv))

/-- Settles O30: with SP and LO as the call left them RET reads the slot of the call's push. -/
theorem callThenRetReturns : Obligations.CallThenRetReturns := by
  intro g g' target s sound hw inside
  obtain ⟨-, calls⟩ := ControlTransfers.callPushesReturnAddress g target s sound hw
  rw [if_pos inside] at calls
  obtain ⟨t, called, ⟨sp, slot, -, -, params, -, -⟩, -, kept⟩ := calls
  refine ⟨t, called, fun u soundU paramsU spU loU intact => ?_⟩
  have lo : t.addr s.params.loIdx = s.addr s.params.loIdx :=
    addr_of_sameRegsBut kept (not_or.mpr ⟨loIdx_ne_spIdx sound, loIdx_ne_pcIdx sound⟩)
  have spBelow : u.addr s.params.spIdx = s.addr s.params.spIdx - 8 := spU.trans (addr_of_withAddr sp)
  have slots : popSlot u = pushSlot s 8 := popSlot_eq_pushSlot (paramsU.trans params) (loU.trans lo) spBelow
  obtain ⟨-, returns⟩ := ControlTransfers.retPopsPc g' u soundU
  rw [slots, paramsU.trans params, if_pos inside] at returns
  obtain ⟨v, returned, bits, -, spAfter, -⟩ := returns
  refine ⟨v, returned, BitVec.eq_of_getLsbD_eq fun k hk => ?_, ?_⟩
  · rw [bits k hk, memBit_of_memHolds (memHolds_congr slot intact) hk]
  · rw [addr_of_withAddr spAfter, spBelow, BitVec.sub_add_cancel]

end Sys2Proof.RoundTrips
end

section
/-! Trap entry (44_control.md R122, R124): the frame INT pushes, register by register. What the registers are after the first
`k` pushes is said apart from what memory is, because a fault discards both and asks for no canonical memory. -/

namespace Sys2Proof.TrapEntry

open Machine Laws InstructionRules RoundTrips

variable {s t u : State} {k : Nat}

/-! ### Registers along the pushes -/

/-- `u` is `s` after `k` pushes of a register, but for memory: SP has moved by 16 for each. -/
structure SpLowered (s u : State) (k : Nat) : Prop where
  sp : u.reg s.params.spIdx = withAddr (s.reg s.params.spIdx) (s.addr s.params.spIdx - BitVec.ofNat 64 (16 * k))
  kept : SameRegsBut s u (fun j => j = s.params.spIdx)
  flags : u.flags = s.flags
  quiet : Quiet s u

/-- No pushes leave the state as it is. -/
theorem spLowered_zero (s : State) : SpLowered s s 0 where
  sp := by
    rw [Nat.mul_zero, BitVec.sub_zero]
    exact (withAddr_setWidth _).symm
  kept _ _ := rfl
  flags := rfl
  quiet := ⟨rfl, rfl, rfl⟩

/-- SP moved by 16 for each of `k` registers moves by 16 for each of `k + 1`. -/
theorem sub_sixteen (a : Addr) (k : Nat) :
    a - BitVec.ofNat 64 (16 * k) - BitVec.ofNat 64 16 = a - BitVec.ofNat 64 (16 * (k + 1)) := by
  rw [Nat.mul_add, BitVec.ofNat_add, BitVec.sub_sub]

/-- The pushes keep the parameters. -/
theorem SpLowered.params (lowered : SpLowered s u k) : u.params = s.params := lowered.quiet.1

/-- The register file stays sound along the pushes. -/
theorem SpLowered.regsSound (lowered : SpLowered s u k) (sound : s.regsSound = true) : u.regsSound = true := by
  obtain ⟨-, -, -, params, length, -⟩ := lowered
  exact (regsSound_congr params length).trans sound

/-- The slot of the next push is that of the frame (R124). -/
theorem SpLowered.pushSlot_eq (lowered : SpLowered s u k) (sound : s.regsSound = true) :
    pushSlot u 16 = frameSlot s k := by
  obtain ⟨sp, kept, -, params, -⟩ := lowered
  rw [pushSlot, params, addr_of_withAddr sp, sub_sixteen,
    localEA_congr params (addr_of_sameRegsBut kept (loIdx_ne_spIdx sound)), frameSlot]

/-- The next register pushed is read as the frame saves it: SP as it has moved by then (R124). -/
theorem SpLowered.reg_eq (lowered : SpLowered s u k) : u.reg k = frameValue s k := by
  rw [frameValue]
  split
  next isSp => rw [isSp, lowered.sp, isSp]
  next notSp => exact lowered.kept k notSp

/-- What a push leaves in each register: SP has moved, its upper half kept (R98). -/
theorem push_reg {n : Nat} {v : BitVec (8 * n)} (sound : s.regsSound = true) (pushed : s.push n v = .ok t) (j : Nat) :
    t.reg j =
      if j = s.params.spIdx then withAddr (s.reg s.params.spIdx) (s.addr s.params.spIdx - BitVec.ofNat 64 n)
      else s.reg j := by
  obtain ⟨-, rfl⟩ := push_eq_ok.mp pushed
  exact setAddr_reg _ j _ (spIdx_lt sound)

/-- One register more pushed moves SP by 16 more. -/
theorem SpLowered.succ (lowered : SpLowered s u k) (sound : s.regsSound = true)
    (pushed : u.push 16 (u.reg k) = .ok t) : SpLowered s t (k + 1) := by
  have registers := push_reg (lowered.regsSound sound) pushed
  obtain ⟨sp, kept, flags, params, length, reports⟩ := lowered
  have effect := effect_push pushed
  rw [params, addr_of_withAddr sp, sp, withAddr_withAddr, sub_sixteen] at registers
  exact ⟨(registers _).trans (if_pos rfl), fun j other => ((registers j).trans (if_neg other)).trans (kept j other),
    effect.flags.trans flags, effect.params.trans params, effect.length.trans length, effect.reports.trans reports⟩

/-- The next push answers where its slot is in bounds. -/
theorem SpLowered.push_of_inside (lowered : SpLowered s u k) (sound : s.regsSound = true)
    (inside : s.inBounds (frameSlot s k) 16) : ∃ t, u.push 16 (u.reg k) = .ok t := by
  rw [← lowered.pushSlot_eq sound, State.inBounds, ← lowered.params] at inside
  exact ⟨_, push_eq_ok.mpr ⟨inside, rfl⟩⟩

/-- The next push faults where its slot is out of bounds. -/
theorem SpLowered.push_of_outside (lowered : SpLowered s u k) (sound : s.regsSound = true)
    (outside : ¬ s.inBounds (frameSlot s k) 16) : u.push 16 (u.reg k) = .error (.memory (frameSlot s k)) := by
  rw [← lowered.pushSlot_eq sound, State.inBounds, ← lowered.params] at outside
  rw [← lowered.pushSlot_eq sound]
  exact push_eq_error.mpr ⟨outside, rfl⟩

/-! ### Memory along the pushes -/

/-- An address is at least 16 bytes from another that is a distance of 16 or more from it, both ways round the address
space. -/
theorem apart_of_distance (x : Addr) {d : Nat} (far : 16 ≤ d) (near : d + 16 ≤ 2 ^ 64) :
    x.toNat + 16 ≤ (x - BitVec.ofNat 64 d).toNat ∨ (x - BitVec.ofNat 64 d).toNat + 16 ≤ x.toNat := by
  have := x.isLt
  rw [BitVec.toNat_sub, BitVec.toNat_ofNat]
  omega

/-- Slots of a frame do not overlap where the address space has room for it. -/
theorem frameSlot_apart {i : Nat} (lower : i < k) (room : 16 * (k + 1) ≤ 2 ^ 64) :
    (frameSlot s i).toNat + 16 ≤ (frameSlot s k).toNat ∨ (frameSlot s k).toNat + 16 ≤ (frameSlot s i).toNat := by
  have distance : frameSlot s k = frameSlot s i - BitVec.ofNat 64 (16 * (k - i)) := by
    have split : 16 * (k + 1) = 16 * (i + 1) + 16 * (k - i) := by omega
    rw [frameSlot, frameSlot, State.localEA, State.localEA, split, BitVec.ofNat_add]
    ring
  rw [distance]
  exact apart_of_distance _ (by omega) (by omega)

/-- The memory of `u` is that of `s` with the frame's first `k` slots saved. -/
structure FrameSaved (s u : State) (k : Nat) : Prop where
  canonical : u.mem.wf = true
  saved : ∀ i, i < k → MemHolds u (frameSlot s i).toNat 16 (frameValue s i)
  outside : ∀ a, (∀ i, i < k → a < (frameSlot s i).toNat ∨ (frameSlot s i).toNat + 16 ≤ a) → u.mem.read a = s.mem.read a

/-- One register more pushed saves it in its slot, and overwrites none before it. -/
theorem FrameSaved.succ (saved : FrameSaved s u k) (lowered : SpLowered s u k) (sound : s.regsSound = true)
    (room : 16 * (k + 1) ≤ 2 ^ 64) (pushed : u.push 16 (u.reg k) = .ok t) : FrameSaved s t (k + 1) := by
  have canonical : t.mem.wf = true := by
    obtain ⟨-, rfl⟩ := push_eq_ok.mp pushed
    exact writeBytes_wf saved.canonical _ _
  obtain ⟨⟨-, slot, others, -, -⟩, -⟩ := StackPushes.pushed_of_push (lowered.regsSound sound) saved.canonical pushed
  rw [lowered.pushSlot_eq sound] at slot others
  rw [lowered.reg_eq] at slot
  refine ⟨canonical, fun i below => ?_, fun a apart => ?_⟩
  · rcases Nat.lt_succ_iff_lt_or_eq.mp below with lower | rfl
    · refine memHolds_congr (saved.saved i lower) fun b hb => others _ ?_
      have := frameSlot_apart (s := s) lower room
      omega
    · exact slot
  · exact (others a (apart k (Nat.lt_succ_self k))).trans
      (saved.outside a fun i lower => apart i (Nat.lt_succ_of_lt lower))

/-- Canonical memory of `s` is the memory before the pushes. -/
theorem frameSaved_zero (canonical : s.mem.wf = true) : FrameSaved s s 0 where
  canonical := canonical
  saved _ none := absurd none (Nat.not_lt_zero _)
  outside _ _ := rfl

/-! ### The registers pushed one after another -/

/-- Pushing `m` registers from `k` on answers where each of their slots is in bounds; they are saved in the frame where
memory was canonical and the frame has room. -/
theorem pushRegs_of_inside (sound : s.regsSound = true) (m : Nat) (lowered : SpLowered s u k)
    (saved : s.mem.wf = true → 16 * k ≤ 2 ^ 64 → FrameSaved s u k)
    (inside : ∀ i, k ≤ i → i < k + m → s.inBounds (frameSlot s i) 16) :
    ∃ t, u.pushRegs (List.range' k m) = .ok t ∧ SpLowered s t (k + m) ∧
      (s.mem.wf = true → 16 * (k + m) ≤ 2 ^ 64 → FrameSaved s t (k + m)) := by
  induction m generalizing u k with
  | zero => exact ⟨u, rfl, lowered, saved⟩
  | succ m ih =>
    obtain ⟨t, pushed⟩ := lowered.push_of_inside sound (inside k le_rfl (by omega))
    have savedNext : s.mem.wf = true → 16 * (k + 1) ≤ 2 ^ 64 → FrameSaved s t (k + 1) := fun canonical room =>
      (saved canonical (by omega)).succ lowered sound room pushed
    obtain ⟨v, rest, ends⟩ := ih (lowered.succ sound pushed) savedNext fun i above below => inside i (by omega) (by omega)
    rw [Nat.succ_add_eq_add_succ] at ends
    exact ⟨v, pushRegs_cons_eq_ok.mpr ⟨t, pushed, rest⟩, ends⟩

/-- Pushing registers faults at the first slot out of bounds (R122). -/
theorem pushRegs_of_outside (sound : s.regsSound = true) {i : Nat} (m : Nat) (lowered : SpLowered s u k) (from_k : k ≤ i)
    (below : i < k + m) (outside : ¬ s.inBounds (frameSlot s i) 16)
    (inside : ∀ j, k ≤ j → j < i → s.inBounds (frameSlot s j) 16) :
    u.pushRegs (List.range' k m) = .error (.memory (frameSlot s i)) := by
  induction m generalizing u k with
  | zero => omega
  | succ m ih =>
    rw [List.range'_succ, State.pushRegs]
    rcases Nat.eq_or_lt_of_le from_k with rfl | further
    · rw [lowered.push_of_outside sound outside]
      rfl
    · obtain ⟨t, pushed⟩ := lowered.push_of_inside sound (inside k le_rfl further)
      rw [pushed]
      exact ih (lowered.succ sound pushed) further (by omega) fun j above => inside j (by omega)

/-! ### INT -/

/-- All registers are those from 0 on. -/
theorem allRegs_eq (s : State) : s.allRegs = List.range' 0 s.params.nreg := List.range_eq_range'

/-- The whole frame is pushed where each of its slots is in bounds. -/
theorem pushRegs_allRegs (sound : s.regsSound = true) (inside : ∀ i, i < s.params.nreg → s.inBounds (frameSlot s i) 16) :
    ∃ u, s.pushRegs s.allRegs = .ok u ∧ SpLowered s u s.params.nreg ∧
      (s.mem.wf = true → 16 * s.params.nreg ≤ 2 ^ 64 → FrameSaved s u s.params.nreg) := by
  have whole := pushRegs_of_inside sound s.params.nreg (spLowered_zero s) (fun canonical _ => frameSaved_zero canonical)
    fun i _ below => inside i (by omega)
  rwa [allRegs_eq, Nat.zero_add] at *

/-- The vector entry is at one local address before and after the pushes: LO is not moved. -/
theorem SpLowered.localEA_eq (lowered : SpLowered s u k) (sound : s.regsSound = true) (a : Addr) :
    u.localEA a = s.localEA a :=
  localEA_congr lowered.params (addr_of_sameRegsBut lowered.kept (loIdx_ne_spIdx sound)) a

/-- The address in vector entry `id`, as memory stands in `u` (R122). -/
def handlerAddress (u : State) (ea : Addr) : Addr := BitVec.ofNat 64 (leNat (u.mem.readBytes ea.toNat 8))

/-- With the frame pushed, trap entry goes to the handler where the vector entry is in bounds (R122). -/
theorem trapEnter_of_inside (sound : s.regsSound = true) (id : Byte) (pushed : s.pushRegs s.allRegs = .ok u)
    (lowered : SpLowered s u k) (inside : s.inBounds (s.localEA (s.vectorAddr id)) 8) :
    trapEnter id s = .ok (u.setPc (handlerAddress u (s.localEA (s.vectorAddr id)))) := by
  rw [State.inBounds, ← lowered.params] at inside
  rw [trapEnter, pushed]
  show (u.memRead (u.localEA (s.vectorAddr id)) 8 >>= fun h => pure (u.setPc h)) = _
  rw [lowered.localEA_eq sound, memRead_eq_ok.mpr ⟨inside, rfl⟩]
  rfl

/-- With the frame pushed, trap entry faults where the vector entry is out of bounds (R122). -/
theorem trapEnter_of_outside (sound : s.regsSound = true) (id : Byte) (pushed : s.pushRegs s.allRegs = .ok u)
    (lowered : SpLowered s u k) (outside : ¬ s.inBounds (s.localEA (s.vectorAddr id)) 8) :
    trapEnter id s = .error (.memory (s.localEA (s.vectorAddr id))) := by
  rw [State.inBounds, ← lowered.params] at outside
  rw [trapEnter, pushed]
  show (u.memRead (u.localEA (s.vectorAddr id)) 8 >>= fun h => pure (u.setPc h)) = _
  rw [lowered.localEA_eq sound, memRead_eq_error.mpr ⟨outside, rfl⟩]
  rfl

/-- Settles O31: the frame is saved, SP is lowered, and PC, the one register more, goes to the handler. -/
theorem intSavesRegisterFile : Obligations.IntSavesRegisterFile := by
  intro g id s
  refine ⟨encodedAs_of_row rfl rfl rfl, fun sound canonical room inside vectorInside => ?_⟩
  obtain ⟨u, pushed, lowered, saved⟩ := pushRegs_allRegs sound inside
  obtain ⟨-, slots, outside⟩ := saved canonical room
  have soundU : u.regsSound = true := lowered.regsSound sound
  have entered := trapEnter_of_inside sound id pushed lowered vectorInside
  obtain ⟨sp, kept, flags, params, length, reports⟩ := lowered
  have pcRead := setPc_pc soundU (handlerAddress u (s.localEA (s.vectorAddr id)))
  refine ⟨_, finish_eq_next.mpr (.inl entered), slots, outside, ?_, fun k hk => ?_, ?_,
    ControlTransfers.sameRegsBut_setPc params kept, flags, params, (setPc_length ..).trans length, reports⟩
  · refine (ControlTransfers.setPc_sameRegsBut u _ _ ?_).trans sp
    rw [params]
    exact spIdx_ne_pcIdx sound
  · rw [pcRead]
    exact readValue_getLsbD u.mem _ 8 k hk
  · rw [pcRead, ← kept s.params.pcIdx (spIdx_ne_pcIdx sound).symm, ← params]
    exact ControlTransfers.setPc_reg_pc soundU _

/-- Settles O32: the pushes fault at the first slot out of bounds; where all are in bounds, the vector entry can fault. -/
theorem intFaultsWhole : Obligations.IntFaultsWhole := by
  intro g id s sound
  constructor
  · intro i below outside inside
    have faults : s.pushRegs s.allRegs = .error (.memory (frameSlot s i)) := by
      rw [allRegs_eq]
      exact pushRegs_of_outside sound _ (spLowered_zero s) (Nat.zero_le i) (by omega) outside fun j _ => inside j
    refine takesFault_of_error rfl ?_
    rw [trapEnter, faults]
    rfl
  · intro inside outside
    obtain ⟨u, pushed, lowered, -⟩ := pushRegs_allRegs sound inside
    exact takesFault_of_error rfl (trapEnter_of_outside sound id pushed lowered outside)

end Sys2Proof.TrapEntry
end

section
/-! Trap return (44_control.md R123): the registers IRET pops, from IP down, each under the SP and LO restored by then, and
the round trip of a frame that INT pushed (R124). -/

namespace Sys2Proof.TrapReturn

open Machine Laws InstructionRules RoundTrips TrapEntry

variable {s t u : State} {i k : Nat}

/-- PC, SP, LO and IP are the top four registers, one after another (R16). -/
theorem idx_consecutive {p : Params} (h : 5 ≤ p.nreg) :
    p.pcIdx + 1 = p.spIdx ∧ p.spIdx + 1 = p.loIdx ∧ p.loIdx + 1 = p.ipIdx ∧ p.ipIdx + 1 = p.nreg := by
  unfold Params.pcIdx Params.spIdx Params.loIdx Params.ipIdx
  omega

/-! ### Registers along the pops -/

/-- SP once every register from `k` up is popped: first above the words popped, then, once SP is itself popped, above the
words popped after it. -/
def spAfterPops (s : State) (k : Nat) : Word :=
  if k ≤ s.params.spIdx then
    withAddr (wordAt s (iretSlot s s.params.spIdx)) (iretSp s + BitVec.ofNat 64 (16 * (s.params.spIdx - k)))
  else withAddr (s.reg s.params.spIdx) (s.addr s.params.spIdx + BitVec.ofNat 64 (16 * (s.params.nreg - k)))

/-- `u` is `s` after every register from `k` up is popped. -/
structure Popped (s u : State) (k : Nat) : Prop where
  popped : ∀ j, k ≤ j → j < s.params.nreg → j ≠ s.params.spIdx → u.reg j = wordAt s (iretSlot s j)
  sp : u.reg s.params.spIdx = spAfterPops s k
  kept : ∀ j, j < k → j ≠ s.params.spIdx → u.reg j = s.reg j
  mem : u.mem = s.mem
  flags : u.flags = s.flags
  quiet : Quiet s u

/-- The pops keep the parameters. -/
theorem Popped.params (popped : Popped s u k) : u.params = s.params := popped.quiet.1

/-- The register file stays sound along the pops. -/
theorem Popped.regsSound (popped : Popped s u k) (sound : s.regsSound = true) : u.regsSound = true := by
  obtain ⟨-, -, -, -, -, params, length, -⟩ := popped
  exact (regsSound_congr params length).trans sound

/-- No pops leave the state as it is. -/
theorem popped_nreg (sound : s.regsSound = true) : Popped s s s.params.nreg where
  popped j above below := by omega
  sp := by
    have order := idx_order (regsSound_iff.mp sound).1
    rw [spAfterPops, if_neg (by omega), Nat.sub_self, Nat.mul_zero, BitVec.add_zero]
    exact (withAddr_setWidth _).symm
  kept _ _ _ := rfl
  mem := rfl
  flags := rfl
  quiet := ⟨rfl, rfl, rfl⟩

/-- LO is the one restored once it is popped, and the one before until then (R123). -/
theorem Popped.lo (popped : Popped s u k) (sound : s.regsSound = true) :
    u.addr s.params.loIdx = if k ≤ s.params.loIdx then iretLo s else s.addr s.params.loIdx := by
  have order := idx_order (regsSound_iff.mp sound).1
  split
  next restored =>
    have slot : iretSlot s s.params.loIdx = s.addr s.params.spIdx + 16 + s.addr s.params.loIdx := by
      rw [iretSlot, if_neg (by omega), if_pos rfl]
    rw [State.addr, popped.popped _ restored (by omega) (by omega), slot, iretLo]
  next before => exact congrArg (BitVec.setWidth 64) (popped.kept _ (by omega) (by omega))

/-- The address of SP along the pops. -/
theorem Popped.spAddr (popped : Popped s u k) :
    u.addr s.params.spIdx =
      if k ≤ s.params.spIdx then iretSp s + BitVec.ofNat 64 (16 * (s.params.spIdx - k))
      else s.addr s.params.spIdx + BitVec.ofNat 64 (16 * (s.params.nreg - k)) := by
  split
  next restored => exact addr_of_withAddr (popped.sp.trans (if_pos restored))
  next before => exact addr_of_withAddr (popped.sp.trans (if_neg before))

/-- The next pop reads the slot of the register it pops (R123). -/
theorem Popped.popSlot_eq (popped : Popped s u (k + 1)) (sound : s.regsSound = true) (below : k < s.params.nreg) :
    popSlot u = iretSlot s k := by
  obtain ⟨pcSp, spLo, loIp, ipTop⟩ := idx_consecutive (regsSound_iff.mp sound).1
  rw [popSlot, State.localEA, popped.params, popped.lo sound, popped.spAddr, iretSlot]
  rcases (by omega : k = s.params.ipIdx ∨ k = s.params.loIdx ∨ k = s.params.spIdx ∨ k < s.params.spIdx) with
    ip | lo | sp | lower
  · have above : s.params.nreg - (k + 1) = 0 := by omega
    rw [if_neg (by omega), if_neg (by omega), if_pos ip, above, Nat.mul_zero, BitVec.add_zero]
  · have above : s.params.nreg - (k + 1) = 1 := by omega
    rw [if_neg (by omega), if_neg (by omega), if_neg (by omega), if_pos lo, above]
    rfl
  · have above : s.params.nreg - (k + 1) = 2 := by omega
    rw [if_neg (by omega), if_pos (by omega), if_neg (by omega), if_neg (by omega), if_pos sp, above]
    rfl
  · have between : s.params.spIdx - (k + 1) = s.params.pcIdx - k := by omega
    rw [if_pos (by omega), if_pos (by omega), if_neg (by omega), if_neg (by omega), if_neg (by omega), between]

/-- SP popped is the word at its slot. -/
theorem spAfterPops_self (sound : s.regsSound = true) :
    spAfterPops s s.params.spIdx = wordAt s (iretSlot s s.params.spIdx) := by
  obtain ⟨-, spLo, loIp, -⟩ := idx_consecutive (regsSound_iff.mp sound).1
  have slot : iretSlot s s.params.spIdx = s.addr s.params.spIdx + 32 + iretLo s := by
    rw [iretSlot, if_neg (by omega), if_neg (by omega), if_pos rfl]
  rw [spAfterPops, if_pos le_rfl, Nat.sub_self, Nat.mul_zero, BitVec.add_zero, iretSp, slot]
  exact withAddr_setWidth _

/-- An SP moved by 16 for each of `m` words is moved by 16 more for one word more. -/
theorem add_sixteen (a : Addr) (m : Nat) :
    a + BitVec.ofNat 64 (16 * m) + BitVec.ofNat 64 16 = a + BitVec.ofNat 64 (16 * (m + 1)) := by
  rw [Nat.mul_add, BitVec.ofNat_add, BitVec.add_assoc]

/-- A register other than SP popped moves SP by 16. -/
theorem Popped.sp_succ (popped : Popped s u (k + 1)) (below : k < s.params.nreg) (notSp : k ≠ s.params.spIdx) :
    withAddr (u.reg s.params.spIdx) (u.addr s.params.spIdx + BitVec.ofNat 64 16) = spAfterPops s k := by
  rw [popped.spAddr, popped.sp, spAfterPops, spAfterPops]
  by_cases lower : k < s.params.spIdx
  · have between : s.params.spIdx - k = s.params.spIdx - (k + 1) + 1 := by omega
    simp only [if_pos (show k + 1 ≤ s.params.spIdx from lower), if_pos lower.le]
    rw [withAddr_withAddr, add_sixteen, between]
  · have above : s.params.nreg - k = s.params.nreg - (k + 1) + 1 := by omega
    simp only [if_neg (show ¬ k + 1 ≤ s.params.spIdx from lower), if_neg (show ¬ k ≤ s.params.spIdx by omega)]
    rw [withAddr_withAddr, add_sixteen, above]

/-- The next pop, where its slot is in bounds, pops one register more. -/
theorem Popped.pop_of_inside (popped : Popped s u (k + 1)) (sound : s.regsSound = true) (below : k < s.params.nreg)
    (inside : s.inBounds (iretSlot s k) 16) :
    ∃ v t, u.pop 16 = .ok (v, t) ∧ Popped s (t.setReg k v) k := by
  have soundU : u.regsSound = true := popped.regsSound sound
  have slot := popped.popSlot_eq sound below
  have value : poppedValue u 16 = wordAt s (iretSlot s k) := by rw [poppedValue, slot, popped.mem, wordAt]
  rw [← slot, State.inBounds, ← popped.params] at inside
  have moved := poppedSp_reg soundU 16
  rw [popped.params] at moved
  refine ⟨_, _, RoundTrips.pop_of_inside inside, ?_⟩
  obtain ⟨params, length, reports⟩ := popped.quiet
  have registers : ∀ j, j ≠ k → j ≠ s.params.spIdx → ((poppedSp u 16).setReg k (poppedValue u 16)).reg j = u.reg j :=
    fun j other notSp => (setReg_reg_ne _ _ other).trans ((moved j).trans (if_neg notSp))
  have inFile : k < (poppedSp u 16).regs.length := by
    rw [poppedSp, setAddr_length, length, (regsSound_iff.mp sound).2]
    exact below
  have written : ((poppedSp u 16).setReg k (poppedValue u 16)).reg k = wordAt s (iretSlot s k) := by
    rw [setReg_reg, if_pos ⟨rfl, inFile⟩, value]
  refine ⟨fun j above top notSp => ?_, ?_, fun j lower notSp => ?_, popped.mem, popped.flags, params,
    (setReg_length ..).trans ((setAddr_length ..).trans length), reports⟩
  · rcases Nat.eq_or_lt_of_le above with rfl | further
    · exact written
    · exact (registers j further.ne' notSp).trans (popped.popped j further top notSp)
  · by_cases isSp : k = s.params.spIdx
    · subst isSp
      exact written.trans (spAfterPops_self sound).symm
    · rw [setReg_reg_ne _ _ (Ne.symm isSp), moved, if_pos rfl]
      exact popped.sp_succ below isSp
  · exact (registers j lower.ne notSp).trans (popped.kept j (by omega) notSp)

/-- The next pop faults where its slot is out of bounds. -/
theorem Popped.pop_of_outside (popped : Popped s u (k + 1)) (sound : s.regsSound = true) (below : k < s.params.nreg)
    (outside : ¬ s.inBounds (iretSlot s k) 16) : u.pop 16 = .error (.memory (iretSlot s k)) := by
  rw [← popped.popSlot_eq sound below, State.inBounds, ← popped.params] at outside
  rw [← popped.popSlot_eq sound below]
  exact RoundTrips.pop_of_outside outside

/-- The registers below `k + 1` in the order they are popped are `k` and those below it. -/
theorem reverse_range_succ (k : Nat) : (List.range (k + 1)).reverse = k :: (List.range k).reverse := by
  rw [List.range_succ, List.reverse_append, List.reverse_singleton, List.singleton_append]

/-- Popping the registers below `k` answers where each of their slots is in bounds. -/
theorem popRegs_of_inside (sound : s.regsSound = true) (popped : Popped s u k) (bound : k ≤ s.params.nreg)
    (inside : ∀ i, i < k → s.inBounds (iretSlot s i) 16) :
    ∃ t, u.popRegs (List.range k).reverse = .ok t ∧ Popped s t 0 := by
  induction k generalizing u with
  | zero => exact ⟨u, rfl, popped⟩
  | succ k ih =>
    obtain ⟨v, w, first, next⟩ := popped.pop_of_inside sound bound (inside k (Nat.lt_succ_self k))
    obtain ⟨t, rest, ends⟩ := ih next (by omega) fun i below => inside i (by omega)
    rw [reverse_range_succ]
    exact ⟨t, popRegs_cons_eq_ok.mpr ⟨v, w, first, rest⟩, ends⟩

/-- Popping registers faults at the first slot out of bounds, from the highest down (R123). -/
theorem popRegs_of_outside (sound : s.regsSound = true) (popped : Popped s u k) (bound : k ≤ s.params.nreg)
    (below : i < k) (outside : ¬ s.inBounds (iretSlot s i) 16)
    (inside : ∀ j, i < j → j < k → s.inBounds (iretSlot s j) 16) :
    u.popRegs (List.range k).reverse = .error (.memory (iretSlot s i)) := by
  induction k generalizing u with
  | zero => omega
  | succ k ih =>
    rw [reverse_range_succ, State.popRegs]
    rcases Nat.lt_succ_iff_lt_or_eq.mp below with lower | rfl
    · obtain ⟨v, w, first, next⟩ := popped.pop_of_inside sound bound (inside k lower (Nat.lt_succ_self k))
      rw [first]
      exact ih next (by omega) lower fun j above under => inside j above (by omega)
    · rw [popped.pop_of_outside sound bound outside]
      rfl

/-! ### IRET -/

/-- Trap return pops every register where each of their slots is in bounds (R123). -/
theorem trapReturn_of_inside (sound : s.regsSound = true)
    (inside : ∀ i, i < s.params.nreg → s.inBounds (iretSlot s i) 16) :
    ∃ t, trapReturn s = .ok t ∧ Popped s t 0 :=
  popRegs_of_inside sound (popped_nreg sound) le_rfl inside

/-- Settles O33: once every register is popped each is the word at its slot, and SP is above those popped after it. -/
theorem iretRestoresRegisterFile : Obligations.IretRestoresRegisterFile := by
  intro g s
  refine ⟨encodedAs_of_row rfl rfl rfl, fun sound inside => ?_⟩
  obtain ⟨t, returns, popped, sp, -, mem, flags, quiet⟩ := trapReturn_of_inside sound inside
  exact ⟨t, finish_eq_next.mpr (.inl returns), fun i below => popped i (Nat.zero_le i) below, sp,
    fun a => congrArg (Memory.read · a) mem, flags, quiet⟩

/-- Settles O34: the first pop out of bounds, from IP down, is the fault. -/
theorem iretFaultsWhole : Obligations.IretFaultsWhole := by
  intro g s i sound below outside inside
  exact takesFault_of_error rfl (popRegs_of_outside sound (popped_nreg sound) le_rfl below outside inside)

/-! ### IRET after INT -/

/-- `u` can return from the trap that `s` entered: SP and LO are as the INT left them, and the frame holds what it saved
(R124). -/
structure Returnable (s u : State) : Prop where
  params : u.params = s.params
  sp : u.addr s.params.spIdx = s.addr s.params.spIdx - BitVec.ofNat 64 (16 * s.params.nreg)
  lo : u.addr s.params.loIdx = s.addr s.params.loIdx
  frame : ∀ i, i < s.params.nreg → MemHolds u (frameSlot s i).toNat 16 (frameValue s i)

/-- The slot of register `i` is `m` words above an SP that is `m + i + 1` words below the one before the INT. -/
theorem frameSlot_above (s : State) {m n : Nat} (height : m + (i + 1) = n) :
    s.addr s.params.spIdx - BitVec.ofNat 64 (16 * n) + BitVec.ofNat 64 (16 * m) + s.addr s.params.loIdx =
      frameSlot s i := by
  have words : 16 * n = 16 * (i + 1) + 16 * m := by omega
  rw [frameSlot, State.localEA, words, BitVec.ofNat_add]
  ring

section Return

variable (returnable : Returnable s u) (sound : s.regsSound = true)

include returnable

/-- The word at a slot of the frame is the one it saved. -/
theorem wordAt_frameSlot (below : i < s.params.nreg) : wordAt u (frameSlot s i) = frameValue s i :=
  readValue_of_memHolds (returnable.frame i below)

include sound

/-- The LO popped is the one before the INT. -/
theorem iretLo_of_returnable : iretLo u = s.addr s.params.loIdx := by
  obtain ⟨pcSp, spLo, loIp, ipTop⟩ := idx_consecutive (regsSound_iff.mp sound).1
  have slot : u.addr u.params.spIdx + 16 + u.addr u.params.loIdx = frameSlot s s.params.loIdx := by
    rw [returnable.params, returnable.sp, returnable.lo]
    exact frameSlot_above s (m := 1) (by omega)
  rw [iretLo, slot, wordAt_frameSlot returnable (by omega), frameValue, if_neg (by omega)]
  rfl

/-- The SP popped is the one at its turn in the pushes. -/
theorem iretSp_of_returnable : iretSp u = s.addr s.params.spIdx - BitVec.ofNat 64 (16 * s.params.spIdx) := by
  obtain ⟨pcSp, spLo, loIp, ipTop⟩ := idx_consecutive (regsSound_iff.mp sound).1
  have slot : u.addr u.params.spIdx + 32 + iretLo u = frameSlot s s.params.spIdx := by
    rw [iretLo_of_returnable returnable sound, returnable.params, returnable.sp]
    exact frameSlot_above s (m := 2) (by omega)
  rw [iretSp, slot, wordAt_frameSlot returnable (by omega), frameValue, if_pos rfl]
  exact setWidth_append ..

/-- Each register is popped from the slot it was pushed to. -/
theorem iretSlot_of_returnable (below : i < s.params.nreg) : iretSlot u i = frameSlot s i := by
  obtain ⟨pcSp, spLo, loIp, ipTop⟩ := idx_consecutive (regsSound_iff.mp sound).1
  rw [iretSlot, iretLo_of_returnable returnable sound, iretSp_of_returnable returnable sound, returnable.params,
    returnable.sp, returnable.lo]
  rcases (by omega : i = s.params.ipIdx ∨ i = s.params.loIdx ∨ i = s.params.spIdx ∨ i < s.params.spIdx) with
    ip | lo | sp | lower
  · rw [if_pos ip, ← frameSlot_above s (i := i) (m := 0) (n := s.params.nreg) (by omega), Nat.mul_zero, BitVec.add_zero]
  · rw [if_neg (by omega), if_pos lo]
    exact frameSlot_above s (m := 1) (by omega)
  · rw [if_neg (by omega), if_neg (by omega), if_pos sp]
    exact frameSlot_above s (m := 2) (by omega)
  · rw [if_neg (by omega), if_neg (by omega), if_neg (by omega)]
    exact frameSlot_above s (by omega)

/-- The word popped for each register is the one saved for it. -/
theorem wordAt_iretSlot_of_returnable (below : i < s.params.nreg) : wordAt u (iretSlot u i) = frameValue s i := by
  rw [iretSlot_of_returnable returnable sound below, wordAt_frameSlot returnable below]

end Return

/-- A return from the trap restores every register: SP is moved back over the words popped after it. -/
theorem reg_of_return (returnable : Returnable s u) (sound : s.regsSound = true)
    (popped : ∀ i, i < u.params.nreg → i ≠ u.params.spIdx → t.reg i = wordAt u (iretSlot u i))
    (sp : t.reg u.params.spIdx =
      withAddr (wordAt u (iretSlot u u.params.spIdx)) (iretSp u + BitVec.ofNat 64 (16 * u.params.spIdx)))
    (below : i < s.params.nreg) : t.reg i = s.reg i := by
  rw [returnable.params] at popped sp
  by_cases isSp : i = s.params.spIdx
  · subst isSp
    rw [sp, wordAt_iretSlot_of_returnable returnable sound below, iretSp_of_returnable returnable sound,
      BitVec.sub_add_cancel, frameValue, if_pos rfl, withAddr_withAddr]
    exact withAddr_setWidth _
  · rw [popped i below isSp, wordAt_iretSlot_of_returnable returnable sound below, frameValue, if_neg isSp]

/-- Settles O35: every register is popped from the slot it was pushed to, and SP is moved back over the frame. -/
theorem intThenIretRestoresAll : Obligations.IntThenIretRestoresAll := by
  intro g g' id s sound canonical room inside vectorInside
  obtain ⟨-, enters⟩ := intSavesRegisterFile g id s
  obtain ⟨t, entered, slots, -, spT, -, -, kept, -, paramsT, -⟩ :=
    enters sound canonical room inside vectorInside
  refine ⟨t, entered, fun u soundU paramsU spU loU intact => ?_⟩
  have returnable : Returnable s u :=
    { params := paramsU.trans paramsT
      sp := spU.trans (addr_of_withAddr spT)
      lo := loU.trans (addr_of_sameRegsBut kept (not_or.mpr ⟨loIdx_ne_spIdx sound, loIdx_ne_pcIdx sound⟩))
      frame := fun i below => memHolds_congr (slots i below) fun k hk => intact i k below hk }
  obtain ⟨-, returns⟩ := iretRestoresRegisterFile g' u
  have slotsInside : ∀ i, i < u.params.nreg → u.inBounds (iretSlot u i) 16 := by
    intro i below
    rw [returnable.params] at below
    rw [iretSlot_of_returnable returnable sound below, State.inBounds, returnable.params]
    exact inside i below
  obtain ⟨v, returned, popped, spV, -, flags, -, length, -⟩ := returns soundU slotsInside
  have filled : u.regs.length = s.params.nreg := by rw [(regsSound_iff.mp soundU).2, returnable.params]
  have same : v.regs.length = s.regs.length := by rw [length, filled, (regsSound_iff.mp sound).2]
  refine ⟨v, returned, regs_ext same fun i => ?_, flags⟩
  by_cases below : i < s.params.nreg
  · exact reg_of_return returnable sound popped spV below
  · rw [reg_of_ge v (by omega), reg_of_ge s (by omega)]

end Sys2Proof.TrapReturn
end

section
/-! The loader's contract (70_reset_and_hazards.md R142, R143), and several cores on one memory (60_exceptions.md R139): a
launch, a step of one core, and a run under a schedule (20_memory.md R48). -/

namespace Sys2Proof.StartAndCores

open Machine Laws StepInvariants

variable {p : Params} {image : List Byte} {s : State} {m m' : Multi} {x : CoreCtx} {c : Nat}

/-! ### The loader -/

/-- The state the loader leaves with an image in memory (R142). -/
def loaded (p : Params) (image : List Byte) : State :=
  { State.boot p with mem := (State.boot p).mem.writeBytes p.loadOffset.toNat image }

/-- The loader answers exactly where the image fits, with it loaded (R143). -/
theorem init_eq_some : State.init p image = some s ↔
    p.loadOffset.toNat + image.length ≤ p.memSize ∧ s = loaded p image := by
  rw [State.init]
  split
  next fits => simp only [fits, true_and, Option.some.injEq, eq_comm, loaded]
  next unfit => simp [unfit]

/-- The loader refuses exactly the images that do not fit (R143). -/
theorem init_eq_none : State.init p image = none ↔ p.memSize < p.loadOffset.toNat + image.length := by
  rw [State.init]
  split <;> simp [*]
  omega

/-- Memory as loaded is zero but for the image (R29, R142). -/
theorem loaded_read (p : Params) (image : List Byte) (a : Nat) :
    (loaded p image).mem.read a =
      if p.loadOffset.toNat ≤ a ∧ a < p.loadOffset.toNat + image.length then image.getD (a - p.loadOffset.toNat) 0
      else 0 :=
  read_writeBytes (m := ⟨[]⟩) rfl _ a image

/-- Every register zero, PC and SP among them. -/
def blank (p : Params) : State := { State.boot p with regs := List.replicate p.nreg 0 }

/-- A core starts with PC and SP written over registers that are zero (R29). -/
theorem boot_eq (p : Params) :
    State.boot p = ((blank p).setReg p.pcIdx (p.loadOffset.setWidth 128)).setReg p.spIdx (p.loadOffset.setWidth 128) :=
  rfl

/-- A blank register reads zero, also past the Register File. -/
theorem blank_reg (p : Params) (j : Nat) : (blank p).reg j = 0 := by
  simp only [blank, State.reg, List.getD_eq_getElem?_getD, List.getElem?_replicate]
  split <;> rfl

/-- Every register of a core as it starts is zero but PC and SP (R29). -/
theorem boot_reg (enough : 5 ≤ p.nreg) (j : Nat) :
    (State.boot p).reg j = if j = p.pcIdx ∨ j = p.spIdx then p.loadOffset.setWidth 128 else 0 := by
  have order := idx_order enough
  have length : (blank p).regs.length = p.nreg := List.length_replicate
  have pcIn : p.pcIdx < (blank p).regs.length := by omega
  have spIn : p.spIdx < (blank p).regs.length := by omega
  rw [boot_eq, setReg_reg, setReg_reg, setReg_length, blank_reg]
  simp only [pcIn, spIn, and_true]
  by_cases isSp : j = p.spIdx <;> simp [isSp]

/-- The number of registers a core starts with (R29). -/
theorem defaultFile_length (p : Params) : (defaultFile p).length = p.nreg := by
  simp [defaultFile, State.boot]

/-- A state with a sound Register File, the flags of the start and memory as loaded has the invariant. -/
theorem inv_of_loaded (fits : p.loadOffset.toNat + image.length ≤ p.memSize) (params : s.params = p)
    (mem : s.mem = (loaded p image).mem) (flags : s.flags = (State.boot p).flags) (sound : s.regsSound = true) :
    s.Inv := by
  have writes : Writes p.memSize (State.boot p).mem s.mem := mem ▸ .step _ _ fits (.refl _)
  refine ⟨sound, memSound_of_writes (s := State.boot p) params writes rfl, ?_⟩
  rw [flags]
  rfl

/-- Settles O49: what the loader leaves is the start state with the image written to its empty memory. -/
theorem initialisationContract : Obligations.InitialisationContract := by
  intro p image enough
  refine ⟨init_eq_none, fun s starts => ?_⟩
  obtain ⟨fits, rfl⟩ := init_eq_some.mp starts
  exact ⟨loaded_read p image, boot_reg enough, rfl, rfl, rfl, inv_of_loaded fits rfl rfl rfl (boot_regsSound enough)⟩

/-! ### A launch -/

/-- The Register File a core starts with: the one given, or the default (R139). -/
def startFile (p : Params) (f : Option (List Word)) : List Word := f.getD (defaultFile p)

/-- The cores a launch starts, one per entry (R139). -/
def launched (p : Params) (image : List Byte) (files : List (Option (List Word))) : Multi :=
  { cores := (files.map (startFile p)).map fun r => { regs := r, flags := (State.boot p).flags, reports := [] }
    mem := (loaded p image).mem
    params := p }

/-- Every core starts with `NREG` registers exactly where every file given has as many: the default does. -/
theorem startFiles_sized {files : List (Option (List Word))} :
    ((files.map (startFile p)).all fun r => r.length == p.nreg) = true ↔ ∀ f, some f ∈ files → f.length = p.nreg := by
  simp only [List.all_map, List.all_eq_true, Function.comp_apply, beq_iff_eq]
  constructor
  · exact fun sized f given => sized (some f) given
  · intro sized f present
    cases f with
    | none => exact defaultFile_length p
    | some f => exact sized f present

/-- A launch answers exactly where the image fits and every file given has `NREG` registers (R143; log 11). -/
theorem launch_eq_some {files : List (Option (List Word))} :
    Multi.launch p image files = some m ↔
      (p.loadOffset.toNat + image.length ≤ p.memSize ∧ ∀ f, some f ∈ files → f.length = p.nreg) ∧
      m = launched p image files := by
  rw [← startFiles_sized]
  show (if ((files.map (startFile p)).all fun r => r.length == p.nreg) = true then
    (State.init p image).map fun s =>
      { cores := (files.map (startFile p)).map fun r => { regs := r, flags := s.flags, reports := [] }
        mem := s.mem
        params := p } else none) = some m ↔ _
  split
  next sized =>
    rw [Option.map_eq_some_iff]
    constructor
    · rintro ⟨s, starts, rfl⟩
      obtain ⟨fits, rfl⟩ := init_eq_some.mp starts
      exact ⟨⟨fits, sized⟩, rfl⟩
    · rintro ⟨⟨fits, -⟩, rfl⟩
      exact ⟨loaded p image, init_eq_some.mpr ⟨fits, rfl⟩, rfl⟩
  next unsized => simp [unsized]

/-- A launch is refused exactly where the image does not fit or a file given has another number of registers. -/
theorem launch_eq_none {files : List (Option (List Word))} :
    Multi.launch p image files = none ↔
      ¬ (p.loadOffset.toNat + image.length ≤ p.memSize ∧ ∀ f, some f ∈ files → f.length = p.nreg) := by
  constructor
  · intro refused launchable
    exact Option.some_ne_none _ ((launch_eq_some.mpr ⟨launchable, rfl⟩).symm.trans refused)
  · intro unlaunchable
    exact Option.eq_none_iff_forall_ne_some.mpr fun m launches => unlaunchable (launch_eq_some.mp launches).1

/-- Settles O51: what a launch answers is `launched`, whose cores are the entries of `files` one by one. -/
theorem launchStartsEveryCore : Obligations.LaunchStartsEveryCore := by
  intro p image files enough
  constructor
  · rw [launch_eq_none, not_and_or, not_le]
    simp only [not_forall, exists_prop, ne_eq]
  · intro m launches
    obtain ⟨⟨fits, sized⟩, rfl⟩ := launch_eq_some.mp launches
    refine ⟨(List.length_map ..).trans (List.length_map ..), rfl, ⟨_, init_eq_some.mpr ⟨fits, rfl⟩, rfl⟩,
      fun x present => ?_, fun c x found => ?_⟩
    · obtain ⟨r, file, rfl⟩ := List.mem_map.mp present
      obtain ⟨f, given, rfl⟩ := List.mem_map.mp file
      have length : (startFile p f).length = p.nreg := by
        cases f with
        | none => exact defaultFile_length p
        | some f => exact sized f given
      exact inv_of_loaded fits rfl rfl rfl (regsSound_iff.mpr ⟨enough, length⟩)
    · obtain ⟨f, entry, rfl⟩ : ∃ f, files[c]? = some f ∧ _ = x := by
        simpa [launched] using found
      refine ⟨rfl, rfl, fun f' given => ?_, fun default j => ?_⟩
      · cases entry.symm.trans given
        rfl
      · cases entry.symm.trans default
        exact boot_reg enough j

/-! ### A step of one core -/

/-- A step of a core that is there is its own step on the shared memory, and answers (R43). -/
theorem stepCore_of_core (found : m.cores[c]? = some x) :
    ∃ s, step (m.view x) = .next s ∧ m.stepCore c = .next { m with cores := m.cores.set c s.ctx, mem := s.mem } := by
  obtain ⟨s, ends⟩ := stepAlwaysAnswersNext (m.view x)
  refine ⟨s, ends, ?_⟩
  simp only [Multi.stepCore, found, ends]

/-- A schedule entry that names no core does nothing. -/
theorem stepCore_of_none (absent : m.cores[c]? = none) : m.stepCore c = .next m := by
  simp only [Multi.stepCore, absent]

/-- Settles O50: the step writes the context of core `c` alone. -/
theorem coresShareOnlyMemory : Obligations.CoresShareOnlyMemory := by
  intro m c x found
  obtain ⟨s, ends, steps⟩ := stepCore_of_core found
  obtain ⟨inRange, -⟩ := List.getElem?_eq_some_iff.mp found
  exact ⟨s, _, ends, steps, List.getElem?_set_self inRange, rfl, rfl, fun c' other => List.getElem?_set_ne other.symm⟩

/-- A step of one core keeps the invariant of every core: the others keep their registers and flags, and the memory they
see stays sound (R43). -/
theorem stepCore_keepsInv (inv : m.Inv) (c : Nat) : ∃ m', m.stepCore c = .next m' ∧ m'.params = m.params ∧ m'.Inv := by
  cases found : m.cores[c]? with
  | none => exact ⟨m, stepCore_of_none found, rfl, inv⟩
  | some x =>
    obtain ⟨s, ends, steps⟩ := stepCore_of_core found
    obtain ⟨regs, mem, flags⟩ := stepKeepsInvariant (m.view x) s (inv x (List.mem_of_getElem? found)) ends
    have params : s.params = m.params := (stepLeaves_of_step ends).params
    have shared : { s with params := m.params }.memSound = true := by rwa [← params]
    refine ⟨_, steps, rfl, fun y present => ?_⟩
    rcases List.mem_or_eq_of_mem_set present with other | rfl
    · obtain ⟨regs, -, flags⟩ := inv y other
      exact ⟨regs, shared, flags⟩
    · exact ⟨(regsSound_congr (t := { s with params := m.params }) params.symm rfl).trans regs, shared, flags⟩

/-- Settles O52: by induction on the schedule. -/
theorem schedulesKeepInvariant : Obligations.SchedulesKeepInvariant := by
  intro m schedule inv
  induction schedule generalizing m with
  | nil => exact ⟨m, rfl, rfl, inv⟩
  | cons c cs ih =>
    obtain ⟨m₁, steps, params, kept⟩ := stepCore_keepsInv inv c
    obtain ⟨m₂, runs, params', kept'⟩ := ih m₁ kept
    refine ⟨m₂, ?_, params'.trans params, kept'⟩
    rw [Multi.run, steps]
    exact runs

end Sys2Proof.StartAndCores
end
